-- ==== Sys2Proof/Word.lean ====
section
/-! DEFINITION. The word types of the nesemu bus core. Addresses, lengths and counts are natural
numbers in the rules (R10); bit vectors stand only for fields of a request word (R80), fields of a
page-table slot (R27) and data bytes. -/

namespace Sys2Proof

/-- One byte of data (R33). -/
abbrev Byte := BitVec 8

/-- A 32-bit field of a request word: an address, a length, a count or a store address (R80). -/
abbrev Field := BitVec 32

/-- A device identity as the request word and the slot carry it, in 16 bits (R80, R27). An entry holds DevIdWidth of
them (`devOf`). -/
abbrev DevId := BitVec 16

/-- The 128-bit request word `REQ128` (R80). -/
abbrev ReqWord := BitVec 128

/-- The data word `dw` of a scalar write (R81). -/
abbrev DataWord := BitVec 64

end Sys2Proof
end

