-- ==== Sys2Proof/Config.lean ====
section
/-! DEFINITION. The parameters of the block (R8), as plain data that is given at construction and
never changes, and the values that the spec leaves free. -/

namespace Sys2Proof

/-- The byte order of the scalar accessors: the parameter `ScalarOrder` (R8, decision D16). The rules
R161 and R165 decide `little`; what `big` does is DEDUCED from the words (log entry 5). -/
inductive ScalarOrder
  | little
  | big
  deriving DecidableEq, Repr

/-- What the notifier does with one event before it returns (R196, R202, R239). A notifier that never
returns is not expressible (R203, log entry 7). -/
inductive Reaction
  /-- It logs the event, or records it for an upstream substitution, and returns. -/
  | returns
  /-- It ends the whole system. -/
  | endsSystem
  /-- It issues a request to the same bus, whatever request that is (R202). -/
  | issuesRequest
  deriving DecidableEq, Repr

/-- The contents of the store at construction, `Store0` (R8, R233), written as plain data: the byte at
an address is the one listed for it in `cells`, or `fill` where none is listed. Any contents of a store
of StoreSize bytes can be written so. -/
structure StoreImage where
  cells : List Host.Cell
  fill : Byte
  deriving DecidableEq, Repr, Inhabited

/-- The parameters of the block (R8). -/
structure Params where
  /-- `W`: the address width in bits. -/
  addrWidth : Nat
  /-- `P`: the page-size exponent. -/
  pageBits : Nat
  /-- `StoreSize`: how many bytes of backing store there are. -/
  storeSize : Nat
  /-- `DevIdWidth`: the width of a device identity (R22, decision D5, log entry 6). -/
  devIdWidth : Nat
  /-- `ScalarOrder`. -/
  scalarOrder : ScalarOrder
  /-- `Store0`: the store at construction. -/
  store0 : StoreImage
  /-- `Notifier`: its reaction to the first, second, … event; it returns on any event past the list. -/
  notifier : List Reaction
  deriving DecidableEq, Repr

/-- `TOP = 2^W` (R9). -/
def Params.top (p : Params) : Nat := 2 ^ p.addrWidth

/-- `NPAGES = 2^(W−P)` (R8). -/
def Params.npages (p : Params) : Nat := 2 ^ (p.addrWidth - p.pageBits)

/-- `PAGESIZE = 2^P` (R9). -/
def Params.pageSize (p : Params) : Nat := 2 ^ p.pageBits

/-- The legal ranges of the parameters (R8, decision D3). R8 gives none for `DevIdWidth` (log entry 6). -/
structure Params.Legal (p : Params) : Prop where
  width_pos : 1 ≤ p.addrWidth
  width_le : p.addrWidth ≤ 32
  page_le : p.pageBits ≤ p.addrWidth
  store_pos : 1 ≤ p.storeSize
  store_le : p.storeSize ≤ 2 ^ 32

/-- The bytes of a scalar read that its transfer did not move: the `k`-th draw of the machine's life.
"free inputs of the step, under no law, and independent of each other" (R164). Nothing in Lean can
evaluate it (log entry 9). -/
opaque Config.draw : Nat → Byte

/-- The contents of the store at construction in the reset state: `Store0`, any bytes (R8, R233). "It must
not treat it as 0" (R233): nothing in Lean can evaluate it (log entry 3). -/
opaque Config.store0 : StoreImage

/-- The parameters of the reset state: the reference instance W = 16 and P = 10 (R8, log entry 1) with the
StoreSize of 95_test_vectors.md section 0 (DESIGN CHOICE, log entry 2), device identities of 16 bits (R8),
little-endian scalars (R161), an unknown store (R233), and a notifier that always returns (R203, log entry 7). -/
def Config.reference : Params where
  addrWidth := 16
  pageBits := 10
  storeSize := 0x10000
  devIdWidth := 16
  scalarOrder := .little
  store0 := Config.store0
  notifier := []

end Sys2Proof
end

