-- ==== Sys2Proof/Syntax.lean ====
section
/-! DEFINITION. The requests of the block (R2, R84): one constructor for each row of the opcode table,
and the form in which a request arrives on the ports (R80, R81). -/

namespace Sys2Proof

/-- The width of a scalar accessor: N = 8, 16, 32 or 64 bits (R160). -/
inductive Width
  | w8
  | w16
  | w32
  | w64
  deriving DecidableEq, Repr

/-- N, the width in bits (R84, R160). -/
def Width.bits : Width → Nat
  | .w8 => 8
  | .w16 => 16
  | .w32 => 32
  | .w64 => 64

/-- n = N/8, the number of bytes a scalar request moves (R160). -/
def Width.bytes : Width → Nat
  | .w8 => 1
  | .w16 => 2
  | .w32 => 4
  | .w64 => 8

/-- A request term (R84). `WRITE` holds its data bytes, and its count is how many there are (R90). A scalar
write holds its whole data word `dw` (R81). -/
inductive Instr
  | map (dev : DevId) (addr len ptr : Field)
  | read (addr cnt : Field)
  | write (addr : Field) (data : List Byte)
  | dump
  | read8 (addr : Field)
  | read16 (addr : Field)
  | read32 (addr : Field)
  | read64 (addr : Field)
  | write8 (addr : Field) (dw : DataWord)
  | write16 (addr : Field) (dw : DataWord)
  | write32 (addr : Field) (dw : DataWord)
  | write64 (addr : Field) (dw : DataWord)
  deriving DecidableEq, Repr

/-- `READn` by its width (R162). -/
def Instr.readN : Width → Field → Instr
  | .w8, a => .read8 a
  | .w16, a => .read16 a
  | .w32, a => .read32 a
  | .w64, a => .read64 a

/-- `WRITEn` by its width (R166). -/
def Instr.writeN : Width → Field → DataWord → Instr
  | .w8, a, dw => .write8 a dw
  | .w16, a, dw => .write16 a dw
  | .w32, a, dw => .write32 a dw
  | .w64, a, dw => .write64 a dw

/-- What the data port carries with a request word (R81): nothing, the bytes of a `WRITE`, or the data word
of a scalar write. -/
inductive PortData
  | none
  | bytes (d : List Byte)
  | word (dw : DataWord)
  deriving DecidableEq, Repr

/-- A request as it arrives: its word on the request port and its operand on the data port (R80, R81). -/
structure Request where
  word : ReqWord
  data : PortData
  deriving DecidableEq, Repr

end Sys2Proof
end

