-- ==== Sys2Proof/WellFormed.lean ====
section
/-! DEFINITION. Which request terms the encoding admits (R81, R82, R83, R86). -/

namespace Sys2Proof

/-- The address operand is a bus address (R50, R82). -/
def Params.inSpace (p : Params) (addr : Field) : Bool := addr.toNat < p.top

/-- The bits of a data word above the value of a scalar write are 0 (R81). -/
def Width.fits (w : Width) (dw : DataWord) : Bool := dw.toNat < 2 ^ w.bits

/-- A request term that some request spells (R82): its address is below TOP, the count of a `WRITE` fits
its 32-bit field (R86), and a scalar write's value fits its width (R81). The length and the buffer of a `MAP` are
checked by its semantics, not here (R86, R111). -/
def Instr.wellFormed (p : Params) : Instr → Bool
  | .map _ addr _ _ => p.inSpace addr
  | .read addr _ => p.inSpace addr
  | .write addr data => p.inSpace addr && decide (data.length < 2 ^ 32)
  | .dump => true
  | .read8 addr => p.inSpace addr
  | .read16 addr => p.inSpace addr
  | .read32 addr => p.inSpace addr
  | .read64 addr => p.inSpace addr
  | .write8 addr dw => p.inSpace addr && Width.w8.fits dw
  | .write16 addr dw => p.inSpace addr && Width.w16.fits dw
  | .write32 addr dw => p.inSpace addr && Width.w32.fits dw
  | .write64 addr dw => p.inSpace addr && Width.w64.fits dw

end Sys2Proof
end

