-- ==== Sys2Proof/Decode.lean ====
section
/-! DEFINITION. The decoder (R82) and, after it, the encoder (R80, R84). The decoder reads the request word
first, check by check in the order of R82, and then takes the data operand that the word asks for (R81). -/

namespace Sys2Proof

/-- Why the decoder refuses a request (R82, R88; `dataOperand` is the model's own, log entry 13). -/
inductive DecodeError
  /-- `ReservedOpcode`: op is 0xC or more (R82). -/
  | reservedOpcode
  /-- `ReservedField`: a field that must be 0 is not (R82, R88). -/
  | reservedField
  /-- `AddressRange`: the address is TOP or more (R82). -/
  | addressRange
  /-- The data port does not carry the data operand of this request (R81). -/
  | dataOperand
  deriving DecidableEq, Repr

/-! ## Fields of the request word (R80) -/

/-- `op`, bits [127:124]. -/
def opField (q : ReqWord) : BitVec 4 := q.extractLsb' 124 4

/-- `rsv`, bits [123:112]. -/
def rsvField (q : ReqWord) : BitVec 12 := q.extractLsb' 112 12

/-- `dev`, bits [111:96]. -/
def devField (q : ReqWord) : DevId := q.extractLsb' 96 16

/-- `addr`, bits [95:64]. -/
def addrField (q : ReqWord) : Field := q.extractLsb' 64 32

/-- `len`, bits [63:32]. -/
def lenField (q : ReqWord) : Field := q.extractLsb' 32 32

/-- `ptr`, bits [31:0]. -/
def ptrField (q : ReqWord) : Field := q.extractLsb' 0 32

/-! ## The decoder -/

/-- What the request word alone says: the request, less its data operand. -/
inductive Header
  | map (dev : DevId) (addr len ptr : Field)
  | read (addr cnt : Field)
  | write (addr cnt : Field)
  | dump
  | readN (w : Width) (addr : Field)
  | writeN (w : Width) (addr : Field)
  deriving DecidableEq, Repr

/-- The width of a scalar opcode: N = 8 · 2^(op mod 4) (R84). -/
def widthOfOp (op : Nat) : Width :=
  match op % 4 with
  | 0 => .w8
  | 1 => .w16
  | 2 => .w32
  | _ => .w64

/-- The term that an opcode below 0xC stands for, with its fields (R84). -/
def headerOf (q : ReqWord) : Header :=
  match (opField q).toNat with
  | 0 => .map (devField q) (addrField q) (lenField q) (ptrField q)
  | 1 => .read (addrField q) (lenField q)
  | 2 => .write (addrField q) (lenField q)
  | 3 => .dump
  | op => if op < 8 then .readN (widthOfOp op) (addrField q) else .writeN (widthOfOp op) (addrField q)

/-- The checks of R82 on the request word, in the order written there: "The first one that fails names the
refusal" (R82). -/
def decodeWord (p : Params) (q : ReqWord) : Except DecodeError Header :=
  let op := (opField q).toNat
  if 0xC ≤ op then .error .reservedOpcode
  else if rsvField q ≠ 0 then .error .reservedField
  else if op ≠ 0 ∧ (devField q ≠ 0 ∨ ptrField q ≠ 0) then .error .reservedField
  else if 3 ≤ op ∧ lenField q ≠ 0 then .error .reservedField
  else if op = 3 ∧ addrField q ≠ 0 then .error .reservedField
  else if op ≠ 3 ∧ p.top ≤ (addrField q).toNat then .error .addressRange
  else .ok (headerOf q)

/-- A request without a data operand finds none on the data port (R81). -/
def noData (x : PortData) (i : Instr) : Except DecodeError Instr :=
  match x with
  | .none => .ok i
  | .bytes _ => .error .dataOperand
  | .word _ => .error .dataOperand

/-- Take the data operand from the data port: a `WRITE` has exactly `len` bytes, a scalar write has its data
word, whose bits above the value are 0, and no other request has any (R81, R88). -/
def takeData (h : Header) (x : PortData) : Except DecodeError Instr :=
  match h with
  | .map dev addr len ptr => noData x (.map dev addr len ptr)
  | .read addr cnt => noData x (.read addr cnt)
  | .write addr cnt =>
    match x with
    | .none => .error .dataOperand
    | .bytes d => if d.length = cnt.toNat then .ok (.write addr d) else .error .dataOperand
    | .word _ => .error .dataOperand
  | .dump => noData x .dump
  | .readN w addr => noData x (.readN w addr)
  | .writeN w addr =>
    match x with
    | .none => .error .dataOperand
    | .bytes _ => .error .dataOperand
    | .word dw => if w.fits dw then .ok (.writeN w addr dw) else .error .reservedField

/-- The decoder: "a total function from a 128-bit word to a request term or a refusal" (R82). -/
def decode (p : Params) (r : Request) : Except DecodeError Instr :=
  match decodeWord p r.word with
  | .error e => .error e
  | .ok h => takeData h r.data

/-! ## The encoder -/

/-- A request word from its fields, `rsv` 0 (R80). -/
def packWord (op : BitVec 4) (dev : DevId) (addr len ptr : Field) : ReqWord :=
  op ++ 0#12 ++ dev ++ addr ++ len ++ ptr

/-- The opcode of a request (R84). -/
def Instr.opcode : Instr → BitVec 4
  | .map .. => 0x0#4
  | .read .. => 0x1#4
  | .write .. => 0x2#4
  | .dump => 0x3#4
  | .read8 .. => 0x4#4
  | .read16 .. => 0x5#4
  | .read32 .. => 0x6#4
  | .read64 .. => 0x7#4
  | .write8 .. => 0x8#4
  | .write16 .. => 0x9#4
  | .write32 .. => 0xA#4
  | .write64 .. => 0xB#4

/-- The request word of a term: the fields it does not use are 0 (R80). -/
def Instr.word (i : Instr) : ReqWord :=
  match i with
  | .map dev addr len ptr => packWord i.opcode dev addr len ptr
  | .read addr cnt => packWord i.opcode 0 addr cnt 0
  | .write addr data => packWord i.opcode 0 addr (BitVec.ofNat 32 data.length) 0
  | .dump => packWord i.opcode 0 0 0 0
  | .read8 addr => packWord i.opcode 0 addr 0 0
  | .read16 addr => packWord i.opcode 0 addr 0 0
  | .read32 addr => packWord i.opcode 0 addr 0 0
  | .read64 addr => packWord i.opcode 0 addr 0 0
  | .write8 addr _ => packWord i.opcode 0 addr 0 0
  | .write16 addr _ => packWord i.opcode 0 addr 0 0
  | .write32 addr _ => packWord i.opcode 0 addr 0 0
  | .write64 addr _ => packWord i.opcode 0 addr 0 0

/-- What a term puts on the data port (R81). -/
def Instr.portData : Instr → PortData
  | .map .. => .none
  | .read .. => .none
  | .write _ data => .bytes data
  | .dump => .none
  | .read8 .. => .none
  | .read16 .. => .none
  | .read32 .. => .none
  | .read64 .. => .none
  | .write8 _ dw => .word dw
  | .write16 _ dw => .word dw
  | .write32 _ dw => .word dw
  | .write64 _ dw => .word dw

/-- The encoder: a term as it goes over the ports (R80, R81). -/
def encode (i : Instr) : Request := ⟨i.word, i.portData⟩

/-! ## Patterns of the opcode table (R85) -/

/-- The `match` column of R85: the opcode in bits [127:124], every other bit 0. -/
def Instr.pattern (i : Instr) : ReqWord := packWord i.opcode 0 0 0 0

/-- The `mask` column of R85: the bits that do not vary between two requests of one row. -/
def Instr.mask : Instr → ReqWord
  | .map .. => 0xFFFF0000_00000000_00000000_00000000#128
  | .read .. => 0xFFFFFFFF_00000000_00000000_FFFFFFFF#128
  | .write .. => 0xFFFFFFFF_00000000_00000000_FFFFFFFF#128
  | .dump => 0xFFFFFFFF_FFFFFFFF_FFFFFFFF_FFFFFFFF#128
  | .read8 .. => 0xFFFFFFFF_00000000_FFFFFFFF_FFFFFFFF#128
  | .read16 .. => 0xFFFFFFFF_00000000_FFFFFFFF_FFFFFFFF#128
  | .read32 .. => 0xFFFFFFFF_00000000_FFFFFFFF_FFFFFFFF#128
  | .read64 .. => 0xFFFFFFFF_00000000_FFFFFFFF_FFFFFFFF#128
  | .write8 .. => 0xFFFFFFFF_00000000_FFFFFFFF_FFFFFFFF#128
  | .write16 .. => 0xFFFFFFFF_00000000_FFFFFFFF_FFFFFFFF#128
  | .write32 .. => 0xFFFFFFFF_00000000_FFFFFFFF_FFFFFFFF#128
  | .write64 .. => 0xFFFFFFFF_00000000_FFFFFFFF_FFFFFFFF#128

/-! ## One request as one number, as the opcode table numbers its bits -/

/-- `n` bytes from the low bits of `x`, the lowest first. -/
def bytesOfNat : Nat → Nat → List Byte
  | 0, _ => []
  | n + 1, x => BitVec.ofNat 8 x :: bytesOfNat n (x / 256)

/-- The data operand that the header asks for, from the bits `x` above the request word: zeros where there are
none (log entry 12). -/
def Header.operand (h : Header) (x : Nat) : PortData :=
  match h with
  | .map _ _ _ _ => .none
  | .read _ _ => .none
  | .write _ cnt => .bytes (bytesOfNat cnt.toNat x)
  | .dump => .none
  | .readN _ _ => .none
  | .writeN _ _ => .word (BitVec.ofNat 64 x)

/-- A request from its bits: bits 127..0 are the request word, and the bits above it are the data operand. Where
the word spells no request there is none. -/
def tableRequest (p : Params) (w : Nat) : Request :=
  let q := BitVec.ofNat 128 w
  match decodeWord p q with
  | .error _ => ⟨q, .none⟩
  | .ok h => ⟨q, h.operand (w / 2 ^ 128)⟩

/-- The request that the decoder of the reference instance reads from the bits `w` (R82). It is
`decode` of `tableRequest`, with the count of a `WRITE` not counted over again
(`decodeTableWord_eq_decode` in Laws/Decode.lean). -/
def decodeTableWord (_nbits w : Nat) : Option Instr :=
  match decodeWord Config.reference (BitVec.ofNat 128 w) with
  | .error _ => none
  | .ok (.write addr cnt) => some (.write addr (bytesOfNat cnt.toNat (w / 2 ^ 128)))
  | .ok (.map dev addr len ptr) => some (.map dev addr len ptr)
  | .ok (.read addr cnt) => some (.read addr cnt)
  | .ok .dump => some .dump
  | .ok (.readN wd addr) => some (.readN wd addr)
  | .ok (.writeN wd addr) => (takeData (.writeN wd addr) (.word (BitVec.ofNat 64 (w / 2 ^ 128)))).toOption

end Sys2Proof
end

