-- ==== Sys2Proof/Machine/State.lean ====
section
/-! DEFINITION. The state of the block (R20), its faults and refusals, and the state after construction
(R36, R230). Everything is plain data. -/

namespace Sys2Proof.Machine

/-! ## The page table -/

/-- A mapping entry (R22), with the widths of the slot layout (R27): `base` is zero-extended to 32 bits, and `dev` is a
value of DevIdWidth bits in the 16 of the slot. -/
structure Entry where
  dev : DevId
  base : BitVec 32
  len : BitVec 33
  ptr : BitVec 32
  deriving DecidableEq, Repr

/-- "a slot is either empty or holds exactly one entry" (R21): `none` is `EMPTY`. -/
abbrev Slot := Option Entry

/-! ## The backing store -/

/-- The store (R33): the bytes that differ from `Store0`, by rising address. -/
abbrev Memory := List Host.Cell

/-! ## Events and responses -/

/-- The direction of a transfer, and the kind of an access fault (R30, R193). -/
inductive AccessKind
  | read
  | write
  deriving DecidableEq, Repr

/-- `Notify(addr, kind)` (R193). -/
structure Event where
  addr : Nat
  kind : AccessKind
  deriving DecidableEq, Repr

/-- The status of a `MAP` (R87, R192). -/
inductive MapStatus
  | ok
  | alreadyMapped
  deriving DecidableEq, Repr

/-- A record of a `DUMP`: "A record carries only `base` and `len`" (R182). -/
structure DumpRecord where
  base : BitVec 32
  len : BitVec 33
  deriving DecidableEq, Repr

/-- What the response port sends (R87). -/
inductive Response
  /-- The status of a `MAP`. -/
  | status (st : MapStatus)
  /-- The optional bytes of a `READ`. -/
  | bytes (r : List (Option Byte))
  /-- The value of a scalar read. -/
  | value (w : Width) (v : BitVec w.bits)
  /-- The completion of a write: no data and no status. -/
  | completion
  /-- The records of a `DUMP`. -/
  | records (l : List DumpRecord)
  deriving DecidableEq, Repr

/-! ## The transfer state machine -/

/-- What the `DONE` phase is to send (R135, R87). -/
inductive Want
  | bytes
  | value (w : Width)
  | completion
  deriving DecidableEq, Repr

/-- The working registers of a transfer in progress (R30), with its `WRITE` data and the moved bytes of its
`READ` ("The moved bytes are always a prefix", R140; log entry 19). -/
structure Xfer where
  dir : AccessKind
  start : Nat
  cnt : Nat
  cur : Nat
  done : Nat
  rem : Nat
  moved : List Byte
  data : List Byte
  want : Want
  deriving DecidableEq, Repr

/-- The transfer state machine (R30, R135). Its registers hold values only while a request is in progress: in
`IDLE` there are none to read (log entry 26). `chunk` and `sptr` hold values in `COPY` only: that they have none in
`LOOKUP` and `DONE`, where R135 neither writes nor reads them, is the model's choice (DESIGN CHOICE, log entry 30). -/
inductive Fsm
  | idle
  | lookup (x : Xfer)
  | copy (x : Xfer) (chunk sptr : Nat)
  | done (x : Xfer)
  deriving DecidableEq, Repr

/-! ## The request port -/

/-- What can arrive at the block: a request (R80), or a device's change of its own bytes (R33, R68). -/
inductive Input
  | request (r : Request)
  | update (sa : Nat) (bytes : List Byte)
  deriving DecidableEq, Repr

/-- One arrival. `overlaps` says that it comes while the arrival before it is still in progress, which R206
forbids of a request and of an update during a request (log entries 11 and 29). -/
structure Arrival where
  input : Input
  overlaps : Bool
  deriving DecidableEq, Repr

/-! ## The state -/

/-- The state of the block (R20), its parameters (R8), its ports (R81, R87), and two fields of the model's own
(`drawCount`, `ended`). INVENTORY.md says for each which rule names it. -/
structure State where
  /-- The parameters given at construction (R8); no step changes them. -/
  params : Params
  /-- `PT`: the page table (R21). -/
  pt : List Slot
  /-- `Store`: the backing store (R33). -/
  store : Memory
  /-- `fsm`: the transfer state machine (R30). -/
  fsm : Fsm
  /-- `trace`: the events emitted so far (R34). -/
  trace : List Event
  /-- `refused`: the refusal mark (R34). -/
  refused : Bool
  /-- The responses sent so far (R87, log entry 18). -/
  responses : List Response
  /-- The arrivals still to come (R66, log entry 11). -/
  input : List Arrival
  /-- How many draws have been taken (R164, log entry 9). -/
  drawCount : Nat
  /-- The notifier has ended the whole system (R239, log entry 8). -/
  ended : Bool
  deriving DecidableEq, Repr

/-! ## Faults and refusals -/

/-- Why the machine stops with a fault. An access fault of the spec is none of these: it is an event, and the
request completes (R201). -/
inductive Fault
  /-- A working register is read in `IDLE`, where it holds no value (R30, I19). Raised by `fsmStep` at `IDLE`, which
  no step reaches. Safe. -/
  | fsmIdle
  /-- A transfer did not reach `IDLE` in the phases R136 allows it. Raised by `runFsm`; never, by R136. Safe. -/
  | transferUnfinished
  /-- A store address at or above StoreSize, where there is no byte (R33). Raised by the copy step; never in a
  state whose table `MAP` has written (R111, log entry 15). Safe. -/
  | outsideStore
  /-- The notifier has ended the whole system (R239): there is no further step. Raised by `step`. Safe. -/
  | systemEnded
  deriving DecidableEq, Repr

/-- Why a request has no meaning (R205): "the model sets `refused` and the state has no successor". Each
is safe: nothing can be proved of a run that issues such a request. -/
inductive Refusal
  /-- An instruction whose meaning is not written. Raised by no arm. Safe. -/
  | notModelled (mnemonic : String)
  /-- `ReservedOpcode`: raised by the decoder (R82). Safe. -/
  | reservedOpcode
  /-- `ReservedField`: raised by the decoder (R82) and by a scalar write (R166). Safe. -/
  | reservedField
  /-- `AddressRange`: raised by the decoder (R82) and by a request term whose address is TOP or more (R50). Safe. -/
  | addressRange
  /-- `MapZeroLength`: raised by `MAP` (R111). Safe. -/
  | mapZeroLength
  /-- `MapBeyondTop`: raised by `MAP` (R111). Safe. -/
  | mapBeyondTop
  /-- `MapBufferRange`: raised by `MAP` (R111). Safe. -/
  | mapBufferRange
  /-- `TransferBeyondTop`: raised by a transfer (R138). Safe. -/
  | transferBeyondTop
  /-- `ConcurrentRequest`: raised by the port (R206). Safe. -/
  | concurrentRequest
  /-- `ReentrantRequest`: raised when the notifier issues a request (R202). Safe. -/
  | reentrantRequest
  /-- The data port does not carry the request's data operand (R81). The model's own name, raised by the decoder
  (log entry 13). Safe. -/
  | dataOperand
  /-- A device changes bytes where the store has none (R33). The model's own name, raised by the port (log
  entry 14). Safe. -/
  | updateOutsideStore
  /-- The state carries the refusal mark and has no successor (R34, R205). Raised by `step` (log entry 16). Safe. -/
  | alreadyRefused
  deriving DecidableEq, Repr

/-! ## Construction -/

/-- The state after construction with the parameters `p` (R36, R230): every slot `EMPTY`, the store as `Store0`,
`IDLE`, nothing emitted, nothing refused. -/
def State.construct (p : Params) : State where
  params := p
  pt := List.replicate p.npages none
  store := []
  fsm := .idle
  trace := []
  refused := false
  responses := []
  input := []
  drawCount := 0
  ended := false

/-- The machine right after reset: construction of the reference instance (R230, R36). -/
def State.reset : State := State.construct Config.reference

end Sys2Proof.Machine
end

