-- ==== Sys2Proof/Machine/Ops.lean ====
section
/-! DEFINITION. The named operations over the page table, the store and the ports: pages (R9), mappings (R22 to
R24), translation (R55), the store (R12, R33), taking an access fault and completing a request (R193 to R201). -/

namespace Sys2Proof.Machine

/-! ## Pages (R9) -/

/-- `page(a) = a >> P` (R9). -/
def page (p : Params) (a : Nat) : Nat := a >>> p.pageBits

/-- `pagebase(i) = i << P` (R9). -/
def pagebase (p : Params) (i : Nat) : Nat := i <<< p.pageBits

/-! ## Mappings (R22 to R25) -/

/-- The device identity that an entry holds: "DevIdWidth bits" (R22). Of a request's 16 bits (R80) it keeps the low
DevIdWidth, all of them in the reference instance; a smaller DevIdWidth is log entry 6. -/
def devOf (p : Params) (dev : DevId) : DevId := BitVec.ofNat 16 (dev.toNat % 2 ^ p.devIdWidth)

/-- One registration: the operands of a `MAP` (R110), with the length in the width of a slot (R22). -/
structure Mapping where
  dev : DevId
  base : BitVec 32
  len : BitVec 33
  ptr : BitVec 32
  deriving DecidableEq, Repr

/-- One past the last address of the extent (R17). -/
def Mapping.stop (m : Mapping) : Nat := m.base.toNat + m.len.toNat

/-- One past the last address of the extent that a slot's entry records (R22). -/
def Entry.stop (e : Entry) : Nat := e.base.toNat + e.len.toNat

/-- The first slot of the span (R112). -/
def Mapping.first (p : Params) (m : Mapping) : Nat := page p m.base.toNat

/-- The last slot of the span (R112). -/
def Mapping.last (p : Params) (m : Mapping) : Nat := page p (m.stop - 1)

/-- How many bytes of the registration the slots before slot `i` map (R23). -/
def slotOffset (p : Params) (base i : Nat) : Nat := max base (pagebase p i) - base

/-- What a mapping writes into slot `i` (R23, R114). -/
def Mapping.entry (p : Params) (m : Mapping) (i : Nat) : Entry where
  dev := m.dev
  base := m.base
  len := m.len
  ptr := m.ptr + BitVec.ofNat 32 (slotOffset p m.base.toNat i)

/-- The registration that an entry in slot `i` belongs to (R23 read backwards). -/
def Entry.mapping (p : Params) (e : Entry) (i : Nat) : Mapping where
  dev := e.dev
  base := e.base
  len := e.len
  ptr := e.ptr - BitVec.ofNat 32 (slotOffset p e.base.toNat i)

/-- The slot at index `i`: `PT[i]` (R11). Past the table there is nothing mapped. -/
def slotAt (pt : List Slot) (i : Nat) : Slot := (pt[i]?).getD none

/-- Pass 1 of `MAP`: every slot of the span is `EMPTY` (R113). -/
def spanFree (p : Params) (m : Mapping) (pt : List Slot) : Bool :=
  (List.range' (m.first p) (m.last p + 1 - m.first p)).all fun i => (slotAt pt i).isNone

/-- Pass 2 of `MAP`: write the entry of every slot of the span, and no other slot (R114). -/
def commit (p : Params) (m : Mapping) (pt : List Slot) : List Slot :=
  pt.mapIdx fun i e => if m.first p ≤ i ∧ i ≤ m.last p then some (m.entry p i) else e

/-! ## Translation and bounds check (R55, R137, R191) -/

/-- The class of a bus address (R55). -/
inductive Xlate
  | hit (e : Entry) (sa : Nat)
  | unmapped
  | belowBase (e : Entry)
  | beyondExtent (e : Entry)
  deriving DecidableEq, Repr

/-- `xlate(a)` (R55). -/
def xlate (p : Params) (pt : List Slot) (a : Nat) : Xlate :=
  match slotAt pt (page p a) with
  | none => .unmapped
  | some e =>
    if a < e.base.toNat then .belowBase e
    else if e.stop ≤ a then .beyondExtent e
    else .hit e (e.ptr.toNat + (a - max e.base.toNat (pagebase p (page p a))))

/-- The store address of a `HIT` (R55). -/
def Xlate.storeAddr : Xlate → Option Nat
  | .hit _ sa => some sa
  | _ => none

/-- `faultaddr(cur, x)`: the address that a fault at `cur` reports (R137, decisions D14 and D15, log entry 20). -/
def Xlate.faultAddr (cur : Nat) : Xlate → Nat
  | .beyondExtent e => e.stop
  | _ => cur

/-- The cause of an access fault (R191). It is not emitted. -/
inductive Cause
  | unmapped
  | beyondExtent
  | belowBase
  deriving DecidableEq, Repr

/-- The cause of a fault at an address of this class; a `HIT` causes none (R191). -/
def Xlate.cause : Xlate → Option Cause
  | .hit .. => none
  | .unmapped => some .unmapped
  | .beyondExtent _ => some .beyondExtent
  | .belowBase _ => some .belowBase

/-! ## The store (R12, R33, R233) -/

/-- The byte listed for an address, if one is. -/
def lookupCell : List Host.Cell → Nat → Option Byte
  | [], _ => none
  | c :: m, a => if c.1 = a then some c.2 else lookupCell m a

/-- `Store0` at an address: what an address of the store that is not listed reads as (R36, R233, log entry 3). -/
def storeByte0 (z : StoreImage) (a : Nat) : Byte := (lookupCell z.cells a).getD z.fill

/-- `Store[a]` (R11). -/
def Memory.read (z : StoreImage) (m : Memory) (a : Nat) : Byte := (lookupCell m a).getD (storeByte0 z a)

/-- List a byte, in place of what was listed for its address. -/
def insertCell (a : Nat) (b : Byte) : Memory → Memory
  | [] => [(a, b)]
  | c :: m => if a < c.1 then (a, b) :: c :: m else if a = c.1 then (a, b) :: m else c :: insertCell a b m

/-- List nothing for an address. -/
def eraseCell (a : Nat) : Memory → Memory
  | [] => []
  | c :: m => if c.1 = a then m else c :: eraseCell a m

/-- `Store[a] <- b` (R11). A byte that equals `Store0`'s is not listed, so that equal stores are equal lists. -/
def Memory.write (z : StoreImage) (m : Memory) (a : Nat) (b : Byte) : Memory :=
  if b = storeByte0 z a then eraseCell a m else insertCell a b m

/-- `StoreRead(s, n)` (R12). -/
def Memory.readBytes (z : StoreImage) (m : Memory) (sa : Nat) : Nat → List Byte
  | 0 => []
  | n + 1 => Memory.read z m sa :: Memory.readBytes z m (sa + 1) n

/-- `StoreWrite(s, n, v)`: "in increasing i" (R12). -/
def Memory.writeBytes (z : StoreImage) (m : Memory) (sa : Nat) : List Byte → Memory
  | [] => m
  | b :: bs => Memory.writeBytes z (Memory.write z m sa b) (sa + 1) bs

/-- Addresses strictly rise from `lo` on. -/
def risingFrom : Nat → Memory → Bool
  | _, [] => true
  | lo, c :: m => decide (lo ≤ c.1) && risingFrom (c.1 + 1) m

/-- The canonical form of the store: rising addresses, all below StoreSize (R33), and no byte listed that
`Store0` has there. -/
def Memory.wf (p : Params) (m : Memory) : Bool :=
  risingFrom 0 m && m.all fun c => decide (c.1 < p.storeSize) && decide (c.2 ≠ storeByte0 p.store0 c.1)

/-- `Store[a]` in a state. -/
def storeRead (s : State) (a : Nat) : Byte := Memory.read s.params.store0 s.store a

/-! ## The ports -/

/-- No transfer is in progress (R30). -/
def Fsm.isIdle : Fsm → Bool
  | .idle => true
  | _ => false

/-- Send a response (R87). -/
def State.respond (s : State) (r : Response) : State := { s with responses := s.responses ++ [r] }

/-- Accept a request at the port: none while another is in progress (R206). -/
def whenIdle (s : State) (serve : Host.Outcome State Fault Refusal) : Host.Outcome State Fault Refusal :=
  if s.fsm.isIdle then serve else .refused .concurrentRequest

/-- Accept a request with an address operand: its address is below TOP (R50). -/
def acceptAt (s : State) (addr : Field) (serve : Host.Outcome State Fault Refusal) : Host.Outcome State Fault Refusal :=
  whenIdle s (if s.params.inSpace addr then serve else .refused .addressRange)

/-- The model sets the mark of a refused request (R13, R34, R205). The marked state has no successor (log
entry 16). -/
def markRefused (s : State) : State := { s with refused := true }

/-- What the notifier does with the next event: the reaction at the number of events emitted so far, and it
returns where none is listed (R196, R239, log entry 7). -/
def nextReaction (s : State) : Reaction := (s.params.notifier[s.trace.length]?).getD .returns

/-! ## Taking an access fault and completing the request (R193 to R201) -/

/-- `raise AccessFault(a, dir)` in a transfer (R13, R135): one event is emitted, and the transfer goes to `DONE`.
"the block saves nothing" (R200). The event is emitted before the response (R193). A notifier that issues a
request is refused (R202), and one that ends the system does so here (R239, log entry 8). -/
def raiseAccessFault (s : State) (x : Xfer) (a : Nat) : Host.Outcome State Fault Refusal :=
  let t := { s with trace := s.trace ++ [⟨a, x.dir⟩], fsm := .done x }
  match nextReaction s with
  | .returns => .next t
  | .endsSystem => .next { t with ended := true }
  | .issuesRequest => .refused .reentrantRequest

end Sys2Proof.Machine
end

