-- ==== Sys2Proof/Machine/Operands.lean ====
section
/-! DEFINITION. The operands of the requests: unsigned fields, read directly (R83), the bytes of a scalar
(R161, R165), the optional bytes of a `READ` (R14, R140), and the slot as a word of bits (R27). -/

namespace Sys2Proof.Machine

/-! ## Scalars (R160 to R166) -/

/-- "v = sum over k of b[k] * 2^(8k)" (R161). -/
def leNat : List Byte → Nat
  | [] => 0
  | b :: bs => b.toNat + 256 * leNat bs

/-- The bytes in increasing bus address order, as the byte order puts them into a value: lowest byte of the value
first (R161; `big` is log entry 5). -/
def orderBytes : ScalarOrder → List Byte → List Byte
  | .little, bs => bs
  | .big, bs => bs.reverse

/-- The value of a scalar read from its bytes, in increasing bus address order (R161, R162). -/
def assembleValue (o : ScalarOrder) (w : Width) (bs : List Byte) : BitVec w.bits :=
  BitVec.ofNat w.bits (leNat (orderBytes o bs))

/-- Byte `k` of a data word: `v[8k+7:8k]` (R165). -/
def wordByte (dw : DataWord) (k : Nat) : Byte := dw.extractLsb' (8 * k) 8

/-- The bytes of a scalar write's value, in increasing bus address order (R165, R166). -/
def splitValue (o : ScalarOrder) (w : Width) (dw : DataWord) : List Byte :=
  orderBytes o ((List.range w.bytes).map (wordByte dw))

/-- `n` draws, from the `c`-th on (R164). -/
def draws (c n : Nat) : List Byte := (List.range n).map fun k => Config.draw (c + k)

/-! ## The response of a READ (R140) -/

/-- `r[j] = Some(b)` "for each byte moved, and None for each byte after a fault point" (R140). -/
def readResponse (moved : List Byte) (rem : Nat) : List (Option Byte) :=
  moved.map some ++ List.replicate rem none

/-- What the requester does with a `READ` response: `dst'[j] = getD(r[j], dst[j])` (R140). The destination is not
state of the block (R52). -/
def applyRead : List (Option Byte) → List Byte → List Byte
  | o :: r, d :: dst => o.getD d :: applyRead r dst
  | _, dst => dst

/-! ## The slot as a word of 114 bits (R27) -/

/-- The slot's bits: [0] valid, [16:1] dev, [48:17] base, [81:49] len, [113:82] ptr (R27). -/
def slotImage : Slot → BitVec 114
  | none => 0
  | some e => e.ptr ++ e.len ++ e.base ++ e.dev ++ 1#1

/-- The slot that a word of 114 bits stands for: `valid` = 0 is `EMPTY` (R27). -/
def slotOfImage (v : BitVec 114) : Slot :=
  if v.extractLsb' 0 1 = 1#1 then
    some ⟨v.extractLsb' 1 16, v.extractLsb' 17 32, v.extractLsb' 49 33, v.extractLsb' 82 32⟩
  else none

end Sys2Proof.Machine
end

