-- ==== Sys2Proof/Machine/Flags.lean ====
section
/-! DEFINITION. "The block has no flags, condition codes or predicates" (R31). This file holds the codes that the
rules give in their place: the status word of a `MAP`, the bit of an access kind, the code of a fault cause, the
code of a byte on the ports, and the words of a response (R87, R191 to R193). -/

namespace Sys2Proof.Machine

/-- The 32-bit status of a `MAP`: 0 = `OK`, 1 = `ALREADY_MAPPED` (R87, R192). -/
def MapStatus.code : MapStatus → BitVec 32
  | .ok => 0
  | .alreadyMapped => 1

/-- The kind bit of an event: READ = 0, WRITE = 1 (R193). -/
def AccessKind.code : AccessKind → BitVec 1
  | .read => 0
  | .write => 1

/-- The code of a fault cause (R191). -/
def Cause.code : Cause → Nat
  | .unmapped => 0
  | .beyondExtent => 1
  | .belowBase => 2

/-- A dump record on the port: 96 bits, [31:0] base, [64:32] len, [95:65] = 0 (R87). -/
def DumpRecord.code (r : DumpRecord) : BitVec 96 := 0#31 ++ r.len ++ r.base

end Sys2Proof.Machine
end

