-- ==== Sys2Proof/Machine/Diagnostic.lean ====
section
/-! DEFINITION. The diagnostic dump: `DUMP` (R180 to R182). -/

namespace Sys2Proof.Machine

/-- The records of the occupied slots, "in index order" (R180). -/
def dumpRecords (pt : List Slot) : List DumpRecord :=
  pt.filterMap fun slot => slot.map fun e => ⟨e.base, e.len⟩

/-- `DUMP` (R180). It has no address operand: only a request in progress keeps it out (R206). -/
def execDump (s : State) : Host.Outcome State Fault Refusal :=
  whenIdle s (.next (s.respond (.records (dumpRecords s.pt))))

end Sys2Proof.Machine
end

