-- ==== Sys2Proof/Machine/Register.lean ====
section
/-! DEFINITION. Mapping registration: `MAP` (R110 to R117), and a device's one operation with the bus (R91, R118). -/

namespace Sys2Proof.Machine

/-- The registration that the operands of a `MAP` ask for (R110, R22). -/
def mappingOf (p : Params) (dev : DevId) (addr len ptr : Field) : Mapping :=
  ⟨devOf p dev, addr, len.setWidth 33, ptr⟩

/-- `MAP dev, addr, len, ptr` (R114): the preconditions in the order of R111, then pass 1, then pass 2. -/
def execMap (dev : DevId) (addr len ptr : Field) (s : State) : Host.Outcome State Fault Refusal :=
  let m := mappingOf s.params dev addr len ptr
  acceptAt s addr
    (if len = 0 then .refused .mapZeroLength
     else if s.params.top < addr.toNat + len.toNat then .refused .mapBeyondTop
     else if s.params.storeSize < ptr.toNat + len.toNat then .refused .mapBufferRange
     else if spanFree s.params m s.pt then
       .next ({ s with pt := commit s.params m s.pt }.respond (.status .ok))
     else .next (s.respond (.status .alreadyMapped)))

/-! ## Devices (R91, R118) -/

/-- A device: "a contiguous memory block and a length" (R118), with its identity (R91). -/
structure Device where
  dev : DevId
  ptr : Field
  len : Field
  deriving DecidableEq, Repr

/-- `DEVMAP dev, addr` for the device `d`: "expands to `MAP dev, addr, D.len, D.ptr`" (R91). -/
def Device.devmap (d : Device) (addr : Field) : Instr := .map d.dev addr d.len d.ptr

end Sys2Proof.Machine
end

