-- ==== Sys2Proof/Machine/Transfer.lean ====
section
/-! DEFINITION. The multi-page transfer engine (R130 to R139), and `READ` and `WRITE` over it (R140 to R143). -/

namespace Sys2Proof.Machine

/-! ## The transfer state machine (R135) -/

/-- The row `IDLE` of R135: a request arrives, and its registers are set. -/
def startTransfer (s : State) (dir : AccessKind) (start cnt : Nat) (data : List Byte) (want : Want) : State :=
  { s with fsm := .lookup ⟨dir, start, cnt, start, 0, cnt, [], data, want⟩ }

/-- The chunk of a `HIT` at `cur` through the entry `e` (R132). -/
def chunkLen (e : Entry) (x : Xfer) : Nat := min x.rem (e.stop - x.cur)

/-- The rows `LOOKUP` of R135. -/
def lookupStep (s : State) (x : Xfer) : Host.Outcome State Fault Refusal :=
  if x.rem = 0 then .next { s with fsm := .done x }
  else if s.params.top ≤ x.cur then .refused .transferBeyondTop
  else
    match xlate s.params s.pt x.cur with
    | .hit e sa => .next { s with fsm := .copy x (chunkLen e x) sa }
    | c => raiseAccessFault s x (c.faultAddr x.cur)

/-- The registers after a chunk has moved (R134). -/
def Xfer.advance (x : Xfer) (chunk : Nat) : Xfer :=
  { x with cur := x.cur + chunk, done := x.done + chunk, rem := x.rem - chunk }

/-- The row `COPY` of R135: the copy step (R134). A chunk outside the store faults (log entry 15). -/
def copyStep (s : State) (x : Xfer) (chunk sptr : Nat) : Host.Outcome State Fault Refusal :=
  if s.params.storeSize < sptr + chunk then .fault .outsideStore
  else
    match x.dir with
    | .read =>
      .next { s with
        fsm := .lookup { x.advance chunk with
          moved := x.moved ++ Memory.readBytes s.params.store0 s.store sptr chunk } }
    | .write =>
      .next { s with
        store := Memory.writeBytes s.params.store0 s.store sptr ((x.data.drop x.done).take chunk)
        fsm := .lookup (x.advance chunk) }

/-- The row `DONE` of R135, and the return from a fault (R201): the response is sent, and the machine is in `IDLE`.
The bytes of a scalar read that were not moved are draws (R162, R164). Where the notifier has ended the system
the request is "complete up to its fault point" (R239) and no response follows. -/
def doneStep (s : State) (x : Xfer) : State :=
  let t := { s with fsm := .idle }
  if s.ended then t
  else
    match x.want with
    | .bytes => t.respond (.bytes (readResponse x.moved x.rem))
    | .value w =>
      { t.respond (.value w (assembleValue s.params.scalarOrder w (x.moved ++ draws s.drawCount x.rem))) with
        drawCount := s.drawCount + x.rem }
    | .completion => t.respond .completion

/-- One phase of the transfer state machine (R135). In `IDLE` the registers hold no value (R30). -/
def fsmStep (s : State) : Host.Outcome State Fault Refusal :=
  match s.fsm with
  | .idle => .fault .fsmIdle
  | .lookup x => lookupStep s x
  | .copy x chunk sptr => copyStep s x chunk sptr
  | .done x => .next (doneStep s x)

/-- Phase after phase until `IDLE`, at most `n` of them. -/
def runFsm : Nat → State → Host.Outcome State Fault Refusal
  | 0, s => if s.fsm.isIdle then .next s else .fault .transferUnfinished
  | n + 1, s =>
    if s.fsm.isIdle then .next s
    else
      match fsmStep s with
      | .next t => runFsm n t
      | .fault f => .fault f
      | .refused r => .refused r

/-- A whole transfer: it takes at most `cnt` `COPY` phases (R136), as many `LOOKUP` phases before them, one more
`LOOKUP` and `DONE`. -/
def transfer (dir : AccessKind) (start cnt : Nat) (data : List Byte) (want : Want) (s : State) :
    Host.Outcome State Fault Refusal :=
  runFsm (2 * cnt + 2) (startTransfer s dir start cnt data want)

/-! ## READ (R140) -/

/-- `READ addr, cnt` (R140). -/
def execRead (addr cnt : Field) (s : State) : Host.Outcome State Fault Refusal :=
  acceptAt s addr (transfer .read addr.toNat cnt.toNat [] .bytes s)

/-! ## WRITE (R142) -/

/-- `WRITE addr, [d0..d(cnt−1)]` (R142). A term with 2^32 or more data bytes, which no request spells (R64, R86) and
which is not well-formed, runs as a transfer of them all (DESIGN CHOICE, log entry 25). -/
def execWrite (addr : Field) (data : List Byte) (s : State) : Host.Outcome State Fault Refusal :=
  acceptAt s addr (transfer .write addr.toNat data.length data .completion s)

/-! ## The byte-serial form (R139) -/

/-- How a transfer ends: with its bytes moved (and the address of its fault, if one stopped it), or refused at
TOP, or outside the store. -/
inductive SerialEnd
  | stopped (store : Memory) (moved : List Byte) (rem : Nat) (faultAt : Option Nat)
  | beyondTop
  | outsideStore
  deriving DecidableEq, Repr

/-- The byte-serial form of a transfer (R139): `n` bytes still to move, the next one at bus address `a`, with `data`
what a `WRITE` still has to write and `moved` what a `READ` has read. -/
def serialTransfer (p : Params) (pt : List Slot) (dir : AccessKind) :
    Nat → Nat → List Byte → Memory → List Byte → SerialEnd
  | 0, _, _, store, moved => .stopped store moved 0 none
  | n + 1, a, data, store, moved =>
    if p.top ≤ a then .beyondTop
    else
      match xlate p pt a with
      | .hit _ sa =>
        if p.storeSize ≤ sa then .outsideStore
        else
          match dir with
          | .read =>
            serialTransfer p pt dir n (a + 1) data store (moved ++ [Memory.read p.store0 store sa])
          | .write =>
            serialTransfer p pt dir n (a + 1) data.tail (Memory.write p.store0 store sa (data.headD 0)) moved
      | c => .stopped store moved (n + 1) (some (c.faultAddr a))

/-- What a request does whose transfer, in the byte-serial form, ends so (R139 to R142, R201). -/
def finishSerial (s : State) (dir : AccessKind) (want : Want) : SerialEnd → Host.Outcome State Fault Refusal
  | .beyondTop => .refused .transferBeyondTop
  | .outsideStore => .fault .outsideStore
  | .stopped store moved rem none =>
    .next (doneStep { s with store := store } ⟨dir, 0, 0, 0, 0, rem, moved, [], want⟩)
  | .stopped store moved rem (some a) =>
    let x : Xfer := ⟨dir, 0, 0, 0, 0, rem, moved, [], want⟩
    match raiseAccessFault { s with store := store } x a with
    | .next t => .next (doneStep t x)
    | .fault f => .fault f
    | .refused r => .refused r

end Sys2Proof.Machine
end

