-- ==== Sys2Proof/Machine/Scalar.lean ====
section
/-! DEFINITION. The scalar accessors: "thin wrappers" over the transfer engine (R160 to R177). -/

namespace Sys2Proof.Machine

/-- `READn addr` (R162): a transfer of n bytes, answered with a value of N bits. -/
def scalarRead (w : Width) (addr : Field) (s : State) : Host.Outcome State Fault Refusal :=
  acceptAt s addr (transfer .read addr.toNat w.bytes [] (.value w) s)

/-- `WRITEn addr, dw` (R166): refused where bits above the value are not 0, and otherwise a transfer of the value's n
bytes. -/
def scalarWrite (w : Width) (addr : Field) (dw : DataWord) (s : State) : Host.Outcome State Fault Refusal :=
  acceptAt s addr
    (if w.fits dw then transfer .write addr.toNat w.bytes (splitValue s.params.scalarOrder w dw) .completion s
     else .refused .reservedField)

/-- `READ8` (R170). -/
def execRead8 (addr : Field) (s : State) : Host.Outcome State Fault Refusal := scalarRead .w8 addr s

/-- `READ16` (R171). -/
def execRead16 (addr : Field) (s : State) : Host.Outcome State Fault Refusal := scalarRead .w16 addr s

/-- `READ32` (R172). -/
def execRead32 (addr : Field) (s : State) : Host.Outcome State Fault Refusal := scalarRead .w32 addr s

/-- `READ64` (R173). -/
def execRead64 (addr : Field) (s : State) : Host.Outcome State Fault Refusal := scalarRead .w64 addr s

/-- `WRITE8` (R174). -/
def execWrite8 (addr : Field) (dw : DataWord) (s : State) : Host.Outcome State Fault Refusal :=
  scalarWrite .w8 addr dw s

/-- `WRITE16` (R175). -/
def execWrite16 (addr : Field) (dw : DataWord) (s : State) : Host.Outcome State Fault Refusal :=
  scalarWrite .w16 addr dw s

/-- `WRITE32` (R176). -/
def execWrite32 (addr : Field) (dw : DataWord) (s : State) : Host.Outcome State Fault Refusal :=
  scalarWrite .w32 addr dw s

/-- `WRITE64` (R177). -/
def execWrite64 (addr : Field) (dw : DataWord) (s : State) : Host.Outcome State Fault Refusal :=
  scalarWrite .w64 addr dw s

end Sys2Proof.Machine
end

