-- ==== Sys2Proof/Machine/Dispatch.lean ====
section
/-! DEFINITION. One arm for each request of the opcode map (R84), each one call of its meaning. -/

namespace Sys2Proof.Machine

def exec (i : Instr) (s : State) : Host.Outcome State Fault Refusal :=
  match i with
  | .map dev addr len ptr => Sys2Proof.Machine.execMap dev addr len ptr s
  | .read addr cnt => Sys2Proof.Machine.execRead addr cnt s
  | .write addr data => Sys2Proof.Machine.execWrite addr data s
  | .dump => Sys2Proof.Machine.execDump s
  | .read8 addr => Sys2Proof.Machine.execRead8 addr s
  | .read16 addr => Sys2Proof.Machine.execRead16 addr s
  | .read32 addr => Sys2Proof.Machine.execRead32 addr s
  | .read64 addr => Sys2Proof.Machine.execRead64 addr s
  | .write8 addr dw => Sys2Proof.Machine.execWrite8 addr dw s
  | .write16 addr dw => Sys2Proof.Machine.execWrite16 addr dw s
  | .write32 addr dw => Sys2Proof.Machine.execWrite32 addr dw s
  | .write64 addr dw => Sys2Proof.Machine.execWrite64 addr dw s

end Sys2Proof.Machine
end

