-- ==== Sys2Proof/Machine/Port.lean ====
section
/-! DEFINITION. The request port: what arrives next, and a device's change of its own bytes (R33, R66, R68, R206). -/

namespace Sys2Proof.Machine

/-- A device changes the bytes at the store address `sa` (R33): never during a request (R68, R238), and only
bytes that the store has. Which region is its own is the device's duty (log entry 14). -/
def deviceUpdate (sa : Nat) (bs : List Byte) (s : State) : Host.Outcome State Fault Refusal :=
  whenIdle s
    (if s.params.storeSize < sa + bs.length then .refused .updateOutsideStore
     else .next { s with store := Memory.writeBytes s.params.store0 s.store sa bs })

/-- The name under which the machine refuses what the decoder refuses (R205). -/
def refusalOf : DecodeError → Refusal
  | .reservedOpcode => .reservedOpcode
  | .reservedField => .reservedField
  | .addressRange => .addressRange
  | .dataOperand => .dataOperand

/-- The arrival after the one being served comes while that one is in progress (R206). Where both are device updates and
no request is in progress the spec is silent (log entry 29). -/
def overlapsNext : List Arrival → Bool
  | [] => false
  | a :: _ => a.overlaps

/-- What the port has for the machine to do. -/
inductive Fetched
  /-- No arrival, and no transfer in progress: "Between requests it is idle" (R213). -/
  | nothing
  /-- No arrival, and a transfer in progress: its next phase (R135). -/
  | phase
  /-- A device's update, taken from the port. -/
  | update (sa : Nat) (bs : List Byte) (t : State)
  /-- A request, taken from the port and decoded. -/
  | request (i : Instr) (t : State)
  /-- An arrival that is refused. -/
  | stop (r : Refusal)
  deriving DecidableEq, Repr

/-- Take the next arrival. The decoder's refusals come first (R198); an arrival that another one overlaps is
refused (R206, log entry 21). So is a device update that another device update overlaps, no request being in
progress, of which R68 and R206 say nothing (DESIGN CHOICE, log entry 29). The overlapping arrival is not looked into:
that its own word may be one the decoder refuses makes no difference, where R198 and R206 do not say which check comes
first (DESIGN CHOICE, log entry 33). -/
def fetch (s : State) : Fetched :=
  match s.input with
  | [] => if s.fsm.isIdle then .nothing else .phase
  | a :: rest =>
    match a.input with
    | .update sa bs =>
      if overlapsNext rest then .stop .concurrentRequest else .update sa bs { s with input := rest }
    | .request r =>
      match decode s.params r with
      | .error e => .stop (refusalOf e)
      | .ok i => if overlapsNext rest then .stop .concurrentRequest else .request i { s with input := rest }

end Sys2Proof.Machine
end

