-- ==== Sys2Proof/Machine/Step.lean ====
section
/-! DEFINITION. One step of the machine: "A model makes each request one step of the observation" (R243). -/

namespace Sys2Proof.Machine

/-- One step: the next arrival is taken from the port and served whole (R66). A state whose refusal mark is set
has no successor (R205), and after the notifier has ended the system there is none either (R239). -/
def step (s : State) : Host.Outcome State Fault Refusal :=
  if s.refused then .refused .alreadyRefused
  else if s.ended then .fault .systemEnded
  else
    match fetch s with
    | .nothing => .next s
    | .phase => fsmStep s
    | .update sa bs t => deviceUpdate sa bs t
    | .request i t => exec i t
    | .stop r => .refused r

/-- The state in which the request with the bits `w` is what the request port brings next (log entry 12): its
word is bits 127..0 and its data operand the bits above it. -/
def State.withFetchWord (s : State) (_nbits w : Nat) : State :=
  { s with input := [⟨.request (tableRequest s.params w), false⟩] }

end Sys2Proof.Machine
end

