-- ==== Sys2Proof/Machine/Assembler.lean ====
section
/-! DEFINITION. The text form of a request, one on a line (R90), and the pseudo-request `DEVMAP` (R91). No step
uses it. The lexical details that R90 leaves open are in log entry 24. -/

namespace Sys2Proof.Machine

/-- The tokens of a line (R90). -/
inductive Token
  | word (cs : List Char)
  | comma
  | lbrack
  | rbrack
  deriving DecidableEq, Repr

/-- The word collected so far, if it is not empty. -/
def flushWord : List Char → List Token
  | [] => []
  | acc => [.word acc.reverse]

/-- The tokens of a line: "A `;` starts a comment that runs to the end of the line" (R90). -/
def lexLine : List Char → List Char → List Token
  | acc, [] => flushWord acc
  | acc, c :: cs =>
    if c = ';' then flushWord acc
    else if c = ' ' ∨ c = '\t' then flushWord acc ++ lexLine [] cs
    else if c = ',' then flushWord acc ++ .comma :: lexLine [] cs
    else if c = '[' then flushWord acc ++ .lbrack :: lexLine [] cs
    else if c = ']' then flushWord acc ++ .rbrack :: lexLine [] cs
    else lexLine (c :: acc) cs

/-- The value of a digit below the base. -/
def digitValue (base : Nat) (c : Char) : Option Nat :=
  let n := c.toNat
  let v :=
    if 48 ≤ n ∧ n ≤ 57 then n - 48
    else if 97 ≤ n ∧ n ≤ 102 then n - 87
    else if 65 ≤ n ∧ n ≤ 70 then n - 55
    else base
  if v < base then some v else none

/-- The value of a string of digits, from the value of what stands before it. -/
def digitsValue (base : Nat) : Nat → List Char → Option Nat
  | v, [] => some v
  | v, c :: cs =>
    match digitValue base c with
    | some d => digitsValue base (base * v + d) cs
    | none => none

/-- "Numbers are decimal or `0x` hexadecimal" (R90). -/
def numberValue : List Char → Option Nat
  | [] => none
  | ['0', 'x'] => none
  | '0' :: 'x' :: ds => digitsValue 16 0 ds
  | ds => digitsValue 10 0 ds

/-- A number that fits in `n` bits. -/
def numberIn (n : Nat) (cs : List Char) : Option (BitVec n) :=
  match numberValue cs with
  | some v => if v < 2 ^ n then some (BitVec.ofNat n v) else none
  | none => none

/-- The operands after a mnemonic that are words with commas between them. A comma after the last one is refused, as in
the list of a `WRITE`; R90 shows no such form (log entry 24). -/
def wordOperands : List Token → Option (List (List Char))
  | [] => some []
  | [.word w] => some [w]
  | .word w :: .comma :: ts =>
    match wordOperands ts with
    | some (v :: vs) => some (w :: v :: vs)
    | some [] => none
    | none => none
  | _ => none

/-- The bytes of a `WRITE` up to the closing bracket (R90). -/
def listOperand : List Token → Option (List Byte)
  | [.rbrack] => some []
  | [.word w, .rbrack] => (numberIn 8 w).map fun b => [b]
  | .word w :: .comma :: ts =>
    match numberIn 8 w, listOperand ts with
    | some b, some (b' :: bs) => some (b :: b' :: bs)
    | _, _ => none
  | _ => none

/-- The opcode names that take one address and give a scalar read (R84). -/
def readWidthOf (mn : List Char) : Option Width :=
  if mn = "READ8".toList then some .w8
  else if mn = "READ16".toList then some .w16
  else if mn = "READ32".toList then some .w32
  else if mn = "READ64".toList then some .w64
  else none

/-- The opcode names that take an address and a value and give a scalar write (R84). -/
def writeWidthOf (mn : List Char) : Option Width :=
  if mn = "WRITE8".toList then some .w8
  else if mn = "WRITE16".toList then some .w16
  else if mn = "WRITE32".toList then some .w32
  else if mn = "WRITE64".toList then some .w64
  else none

/-- The term of a `MAP` line. -/
def assembleMap (d a l q : List Char) : Option Instr :=
  match numberIn 16 d, numberIn 32 a, numberIn 32 l, numberIn 32 q with
  | some d, some a, some l, some q => some (.map d a l q)
  | _, _, _, _ => none

/-- The term of a `DEVMAP` line: "The assembler needs a table of devices (dev, ptr, len) to expand it" (R91). Of two
devices of the table with one identity it takes the first listed: R91 does not say which, and R116 lets two share one
(DESIGN CHOICE, log entry 32). -/
def assembleDevmap (devs : List Device) (d a : List Char) : Option Instr :=
  match numberIn 16 d, numberIn 32 a with
  | some d, some a => (devs.find? fun v => v.dev == d).map fun v => v.devmap a
  | _, _ => none

/-- The term of a line whose operands are words. -/
def assembleWords (devs : List Device) (mn : List Char) (ops : List (List Char)) : Option Instr :=
  match ops with
  | [] => if mn = "DUMP".toList then some .dump else none
  | [a] =>
    match readWidthOf mn, numberIn 32 a with
    | some w, some a => some (.readN w a)
    | _, _ => none
  | [a, b] =>
    if mn = "READ".toList then
      match numberIn 32 a, numberIn 32 b with
      | some a, some n => some (.read a n)
      | _, _ => none
    else if mn = "DEVMAP".toList then assembleDevmap devs a b
    else
      match writeWidthOf mn, numberIn 32 a, numberIn 64 b with
      | some w, some a, some v => some (.writeN w a v)
      | _, _, _ => none
  | [d, a, l, q] => if mn = "MAP".toList then assembleMap d a l q else none
  | _ => none

/-- The term that a line of tokens stands for. "A line whose mnemonic is not in rule R84 or rule R91 is refused
by the assembler" (R90). -/
def assembleTokens (devs : List Device) : List Token → Option Instr
  | .word mn :: .word a :: .comma :: .lbrack :: ts =>
    if mn = "WRITE".toList then
      match numberIn 32 a, listOperand ts with
      | some a, some bs => some (.write a bs)
      | _, _ => none
    else none
  | .word mn :: ts =>
    match wordOperands ts with
    | some ops => assembleWords devs mn ops
    | none => none
  | _ => none

/-- The assembler: a line of text to a request term (R90, R91). -/
def assemble (devs : List Device) (line : String) : Option Instr := assembleTokens devs (lexLine [] line.toList)

end Sys2Proof.Machine
end

