-- ==== Sys2Proof/Safety.lean ====
section
/-! DEFINITION. What the claims mean by a mapping, by a page table that `MAP` can have written (R24, R25), by a good
state, and by what is seen after a step (R34). -/

namespace Sys2Proof.Machine

/-! ## The mappings of a page table (R23 to R25) -/

/-- The registration passes the preconditions of `MAP` (R111). -/
def Mapping.fits (p : Params) (m : Mapping) : Bool :=
  decide (1 ≤ m.len.toNat) && decide (m.stop ≤ p.top) && decide (m.ptr.toNat + m.len.toNat ≤ p.storeSize)

/-- Slot `i` is in the span of the registration (R24, R112). -/
def Mapping.inSpan (p : Params) (m : Mapping) (i : Nat) : Bool := decide (m.first p ≤ i) && decide (i ≤ m.last p)

/-- The address is in the extent of the registration (R17). -/
def Mapping.covers (m : Mapping) (a : Nat) : Bool := decide (m.base.toNat ≤ a) && decide (a < m.stop)

/-- The registration is a mapping of the table: every slot of its span holds its entry (R24). -/
def Mapping.mapped (p : Params) (pt : List Slot) (m : Mapping) : Bool :=
  m.fits p &&
    (List.range' (m.first p) (m.last p + 1 - m.first p)).all fun i => decide (slotAt pt i = some (m.entry p i))

/-- The occupancy invariant (R21, R24, R25): NPAGES slots, and each entry belongs to a mapping of the table whose span
has that entry's slot. -/
def tableOk (p : Params) (pt : List Slot) : Bool :=
  decide (pt.length = p.npages) &&
    (List.range pt.length).all fun i =>
      match slotAt pt i with
      | none => true
      | some e => (e.mapping p i).mapped p pt && (e.mapping p i).inSpan p i

/-- Every device identity in the table is a value of DevIdWidth bits (R22). -/
def devsFit (p : Params) (pt : List Slot) : Bool :=
  pt.all fun slot =>
    match slot with
    | none => true
    | some e => decide (e.dev.toNat < 2 ^ p.devIdWidth)

/-! ## Good states -/

/-- The invariant of the machine between requests: legal parameters (R8), the occupancy invariant (R24), device
identities of DevIdWidth bits (R22), a store in canonical form (R33), no transfer in progress (R30, R66), and events with
bus addresses only (R34). -/
structure State.Inv (s : State) : Prop where
  legal : s.params.Legal
  table : tableOk s.params s.pt = true
  devs : devsFit s.params s.pt = true
  store : Memory.wf s.params s.store = true
  idle : s.fsm = .idle
  trace : ∀ e ∈ s.trace, e.addr < s.params.top

/-- The addresses `a`, …, `a + n − 1` are all bus addresses that are `HIT`s (R55). -/
def allHits (p : Params) (pt : List Slot) (a n : Nat) : Bool :=
  decide (a + n ≤ p.top) && (List.range n).all fun j => (xlate p pt (a + j)).storeAddr.isSome

/-- The store address of a bus address (R55); 0 where it is no `HIT`. -/
def storeAddrOf (p : Params) (pt : List Slot) (a : Nat) : Nat := (xlate p pt a).storeAddr.getD 0

/-- The byte that a bus address reads as, through its mapping (R56). -/
def State.busByte (s : State) (a : Nat) : Byte := storeRead s (storeAddrOf s.params s.pt a)

/-- The bytes at the bus addresses `a`, …, `a + n − 1` (R61). -/
def State.busBytes (s : State) (a n : Nat) : List Byte := (List.range n).map fun j => s.busByte (a + j)

/-- The fault at the address `a` of a transfer: `a` is a bus address and no `HIT`, and the address reported is `f`
(R137). -/
def faultsAt (p : Params) (pt : List Slot) (a f : Nat) : Bool :=
  decide (a < p.top) && (xlate p pt a).storeAddr.isNone && decide (f = (xlate p pt a).faultAddr a)

/-- The store addresses of `n` bytes from the bus address `a` on are all different: they do not alias one another (R69,
R168). -/
def noAliases (p : Params) (pt : List Slot) (a n : Nat) : Bool :=
  decide ((List.range n).map fun j => storeAddrOf p pt (a + j)).Nodup

/-- The store after the bytes `bs` went to the bus addresses `a`, `a + 1`, …, in that order (R69, R142). -/
def storeThrough (p : Params) (pt : List Slot) (m : Memory) : Nat → List Byte → Memory
  | _, [] => m
  | a, b :: bs => storeThrough p pt (Memory.write p.store0 m (storeAddrOf p pt a) b) (a + 1) bs

/-! ## What is seen after a step -/

/-- What an observer sees after a step: the next state, or the state it stopped in, with the refusal mark set where the
step was refused (R13, R34, R205). A refused step shows the state before it, whatever its request had done before the
refusal: no event it emitted and no byte it moved is in it (DESIGN CHOICE, log entry 31). -/
def observe (s : State) : Host.Outcome State Fault Refusal → State
  | .next t => t
  | .fault _ => s
  | .refused _ => markRefused s

/-- The request is one of the ten that move bytes (R130). -/
def isTransfer : Instr → Bool
  | .map _ _ _ _ => false
  | .read _ _ => true
  | .write _ _ => true
  | .dump => false
  | .read8 _ => true
  | .read16 _ => true
  | .read32 _ => true
  | .read64 _ => true
  | .write8 _ _ => true
  | .write16 _ _ => true
  | .write32 _ _ => true
  | .write64 _ _ => true

/-- The request is `WRITE` or `WRITEn`, the only ones that change the store (R33). -/
def isWrite : Instr → Bool
  | .map _ _ _ _ => false
  | .read _ _ => false
  | .write _ _ => true
  | .dump => false
  | .read8 _ => false
  | .read16 _ => false
  | .read32 _ => false
  | .read64 _ => false
  | .write8 _ _ => true
  | .write16 _ _ => true
  | .write32 _ _ => true
  | .write64 _ _ => true

/-- The bus addresses that a request asks to move: its start and its count (R130, R160); `MAP` and `DUMP` move none. -/
def moveRange : Instr → Nat × Nat
  | .map .. => (0, 0)
  | .dump => (0, 0)
  | .read a n => (a.toNat, n.toNat)
  | .write a d => (a.toNat, d.length)
  | .read8 a => (a.toNat, 1)
  | .read16 a => (a.toNat, 2)
  | .read32 a => (a.toNat, 4)
  | .read64 a => (a.toNat, 8)
  | .write8 a _ => (a.toNat, 1)
  | .write16 a _ => (a.toNat, 2)
  | .write32 a _ => (a.toNat, 4)
  | .write64 a _ => (a.toNat, 8)

/-- The bytes that a `WRITE` or a `WRITEn` sends to its addresses, in increasing address order (R142, R165); no other
request sends any. -/
def dataOf (o : ScalarOrder) : Instr → List Byte
  | .map _ _ _ _ => []
  | .read _ _ => []
  | .write _ d => d
  | .dump => []
  | .read8 _ => []
  | .read16 _ => []
  | .read32 _ => []
  | .read64 _ => []
  | .write8 _ dw => splitValue o .w8 dw
  | .write16 _ dw => splitValue o .w16 dw
  | .write32 _ dw => splitValue o .w32 dw
  | .write64 _ dw => splitValue o .w64 dw

/-! ## What the claims compare -/

/-- The kind of access fault that a request can raise (R191). -/
def accessKindOf (i : Instr) : AccessKind := if isWrite i then .write else .read

/-- The working registers agree: `done + rem = cnt`, `cur = start + done`, and a chunk is at least one byte and no more
than is left (R30, R132, R136). -/
def Fsm.agrees : Fsm → Bool
  | .idle => true
  | .lookup x => decide (x.done + x.rem = x.cnt) && decide (x.cur = x.start + x.done)
  | .copy x chunk _ =>
    decide (x.done + x.rem = x.cnt) && decide (x.cur = x.start + x.done) && decide (1 ≤ chunk) && decide (chunk ≤ x.rem)
  | .done x => decide (x.done + x.rem = x.cnt) && decide (x.cur = x.start + x.done)

/-- `cur`, where it has a value (R30). -/
def Fsm.cur : Fsm → Option Nat
  | .idle => none
  | .lookup x => some x.cur
  | .copy x _ _ => some x.cur
  | .done x => some x.cur

/-- The same table with other device identities. -/
def relabelDevs (g : DevId → DevId) (pt : List Slot) : List Slot :=
  pt.map fun slot => slot.map fun e => { e with dev := g e.dev }

/-- The same machine with another notifier bound at construction. -/
def State.withNotifier (s : State) (l : List Reaction) : State := { s with params := { s.params with notifier := l } }

end Sys2Proof.Machine
end

