-- ==== Sys2Proof/Certificates/Slice0/Obligations.lean ====
section
/-! DEFINITION. The statements about the nesemu bus core. `State.Inv`, `allHits`, `faultsAt`, `busBytes`, `storeThrough`
and `Mapping.mapped` are in Safety.lean. -/

open Sys2Proof Sys2Proof.Machine

/-! ## Decoding and encoding -/

/-- R82, R84, R80, R81: a well-formed term goes over the ports and comes back, every operand at every value. -/
def Obligations.DecodeEncodeRoundTrip : Prop :=
  ∀ (p : Params) (i : Instr), i.wellFormed p = true → decode p (encode i) = .ok i

/-- R82 with decision D32 ("one encoding per request"): what decodes is well-formed, and only its own encoding decodes
to it. That this holds of the data operand too is the model's choice, which refuses a data operand of another kind or
length (DESIGN CHOICE, log entry 13). -/
def Obligations.DecodedHasOneEncoding : Prop :=
  ∀ (p : Params) (r : Request) (i : Instr), decode p r = .ok i → i.wellFormed p = true ∧ encode i = r

/-- R85: "A word matches a row when (q AND mask) = match. It is then that request, provided also that addr < TOP". Read
with the word and data operand of a term `i` of the row: the word decodes, its data operand taken as the row says, to a
term with the row's opcode. -/
def Obligations.RowMatchDecides : Prop :=
  ∀ (p : Params) (q : ReqWord) (i : Instr), q &&& i.mask = i.pattern → (addrField q).toNat < p.top →
    ∃ h : Header, decodeWord p q = .ok h ∧ opField q = i.opcode ∧
      ∀ d j, takeData h d = .ok j → j.opcode = i.opcode ∧ j.word = q

/-- R85: "Exactly one row matches any word that rule R82 does not refuse." -/
def Obligations.ExactlyOneRowMatches : Prop :=
  ∀ (p : Params) (r : Request) (i j : Instr), decode p r = .ok i →
    (r.word &&& i.mask = i.pattern ∧ (r.word &&& j.mask = j.pattern → j.opcode = i.opcode))

/-- R82: each check of the decoder names its refusal, in the order written, whatever the fields after it hold; a word that
passes them all is the term of its opcode, with its fields. -/
def Obligations.DecoderChecksInOrder : Prop :=
  ∀ (p : Params) (q : ReqWord),
    (0xC ≤ (opField q).toNat → decodeWord p q = .error .reservedOpcode) ∧
    ((opField q).toNat < 0xC → rsvField q ≠ 0 → decodeWord p q = .error .reservedField) ∧
    ((opField q).toNat < 0xC → rsvField q = 0 → opField q ≠ 0 → (devField q ≠ 0 ∨ ptrField q ≠ 0) →
      decodeWord p q = .error .reservedField) ∧
    ((opField q).toNat < 0xC → rsvField q = 0 → devField q = 0 → ptrField q = 0 → 3 ≤ (opField q).toNat →
      lenField q ≠ 0 → decodeWord p q = .error .reservedField) ∧
    (opField q = 3 → rsvField q = 0 → devField q = 0 → ptrField q = 0 → lenField q = 0 → addrField q ≠ 0 →
      decodeWord p q = .error .reservedField) ∧
    ((opField q).toNat < 0xC → rsvField q = 0 → (opField q ≠ 0 → devField q = 0 ∧ ptrField q = 0) →
      (3 ≤ (opField q).toNat → lenField q = 0) → opField q ≠ 3 → p.top ≤ (addrField q).toNat →
      decodeWord p q = .error .addressRange) ∧
    ((opField q).toNat < 0xC → rsvField q = 0 → (opField q ≠ 0 → devField q = 0 ∧ ptrField q = 0) →
      (3 ≤ (opField q).toNat → lenField q = 0) → (opField q = 3 → addrField q = 0) →
      (opField q ≠ 3 → (addrField q).toNat < p.top) → decodeWord p q = .ok (headerOf q))

/-- R92 and 95_test_vectors.md sections 1, 2 and 7: words written out, with their data operand on the port, and what they
decode to in the reference instance, whose W = 16 is unaudited (log entry 1). -/
def Obligations.SpecWordsDecode : Prop :=
  decode Config.reference ⟨0x00000001_00000000_00000800_00000000, .none⟩ = .ok (.map 1 0 0x800 0) ∧
  decode Config.reference ⟨0x00000005_0000FFFF_00000001_00000010, .none⟩ = .ok (.map 5 0xFFFF 1 0x10) ∧
  decode Config.reference ⟨0x10000000_00000010_00000004_00000000, .none⟩ = .ok (.read 0x10 4) ∧
  decode Config.reference ⟨0x20000000_000003FE_00000004_00000000, .bytes [0xDE, 0xAD, 0xBE, 0xEF]⟩ =
    .ok (.write 0x3FE [0xDE, 0xAD, 0xBE, 0xEF]) ∧
  decode Config.reference ⟨0x30000000_00000000_00000000_00000000, .none⟩ = .ok .dump ∧
  decode Config.reference ⟨0x70000000_00000004_00000000_00000000, .none⟩ = .ok (.read64 4) ∧
  decode Config.reference ⟨0xA0000000_00006000_00000000_00000000, .word 0xDEADBEEF⟩ = .ok (.write32 0x6000 0xDEADBEEF) ∧
  decode Config.reference ⟨0xC0000000_00000000_00000000_00000000, .none⟩ = .error .reservedOpcode ∧
  decode Config.reference ⟨0x30000000_00000001_00000000_00000000, .none⟩ = .error .reservedField ∧
  decode Config.reference ⟨0x80000000_00000000_00000000_00000000, .word 0x100⟩ = .error .reservedField ∧
  decode Config.reference ⟨0x10000000_00010000_00000001_00000000, .none⟩ = .error .addressRange

/-! ## The step and the port -/

/-- R66, R243, R205: where the port brings a request and the machine has not stopped, a step is `exec i` with the request
taken from the port, if it decodes to `i` and nothing overlaps it, and is refused by the decoder's name for it, if it does
not decode, whatever overlaps it. That the port is a queue in the state, and that the decoder comes before the overlap, is
the model's choice (log entries 11 and 21). -/
def Obligations.StepRunsDecodedRequest : Prop :=
  ∀ (s : State) (r : Request) (b : Bool) (rest : List Arrival),
    s.refused = false → s.ended = false → s.input = ⟨.request r, b⟩ :: rest →
    (∀ i : Instr, overlapsNext rest = false → decode s.params r = .ok i → step s = exec i { s with input := rest }) ∧
    (decode s.params r = .error .reservedOpcode → step s = .refused .reservedOpcode) ∧
    (decode s.params r = .error .reservedField → step s = .refused .reservedField) ∧
    (decode s.params r = .error .addressRange → step s = .refused .addressRange) ∧
    (decode s.params r = .error .dataOperand → step s = .refused .dataOperand)

/-- R206: "A request issued while another request is in progress is refused as `ConcurrentRequest`", a device update
included. The mark of an overlapping arrival is the model's (log entry 11), and so is its place after the decoder's
checks of the arrival served (log entry 21) and before those of its own word (log entry 33). Where both arrivals are
device updates and no request is in progress R206 says nothing, and the refusal is the model's choice (log entry 29). -/
def Obligations.ConcurrentRequestRefused : Prop :=
  ∀ (s : State),
    (∀ i : Instr, s.fsm ≠ .idle → exec i s = .refused .concurrentRequest) ∧
    (∀ sa bs, s.fsm ≠ .idle → deviceUpdate sa bs s = .refused .concurrentRequest) ∧
    (∀ (a : Arrival) (rest : List Arrival), s.refused = false → s.ended = false → s.input = a :: rest →
      overlapsNext rest = true → (∀ r, a.input = .request r → ∃ i, decode s.params r = .ok i) →
      step s = .refused .concurrentRequest)

/-- R205, R34: a refused request sets the mark and leaves no successor; the marked state is refused every step.
How the mark shows is the model's (log entry 16). -/
def Obligations.RefusalLeavesNoSuccessor : Prop :=
  ∀ (s : State) (r : Refusal), step s = .refused r →
    (observe s (step s)).refused = true ∧ (∀ t, step s ≠ .next t) ∧
    step (observe s (step s)) = .refused .alreadyRefused

/-- R33, R68: a device's update between requests changes the bytes it names, no other byte and nothing else.
That it may name any bytes the store has is the model's (log entry 14). -/
def Obligations.DeviceUpdateChangesItsBytes : Prop :=
  ∀ (s : State) (sa : Nat) (bs : List Byte) (b : Bool) (rest : List Arrival),
    s.Inv → s.refused = false → s.ended = false → s.input = ⟨.update sa bs, b⟩ :: rest → overlapsNext rest = false →
    sa + bs.length ≤ s.params.storeSize →
    ∃ t, step s = .next t ∧ t = { s with input := rest, store := t.store } ∧
      ∀ a, storeRead t a = if sa ≤ a ∧ a < sa + bs.length then (bs[a - sa]?).getD 0 else storeRead s a

/-! ## MAP -/

/-- R114, R115, R23, R22: a `MAP` into a free span writes exactly its slots, each with the entry the rule gives, answers
`OK`, and changes nothing else. The identity written has DevIdWidth bits: it is `dev` itself where DevIdWidth is 16 or
more, as in the reference instance, and its low bits below that, which is the model's choice (log entry 6). -/
def Obligations.MapRegistersFreeSpan : Prop :=
  ∀ (dev : DevId) (addr len ptr : Field) (s : State),
    s.Inv → len ≠ 0 → addr.toNat + len.toNat ≤ s.params.top → ptr.toNat + len.toNat ≤ s.params.storeSize →
    (∀ i, page s.params addr.toNat ≤ i → i ≤ page s.params (addr.toNat + len.toNat - 1) → slotAt s.pt i = none) →
    (16 ≤ s.params.devIdWidth → devOf s.params dev = dev) ∧
    (devOf s.params dev).toNat = dev.toNat % 2 ^ s.params.devIdWidth ∧
    ∃ t, exec (.map dev addr len ptr) s = .next t ∧
      t = { s with pt := t.pt, responses := s.responses ++ [.status .ok] } ∧ t.pt.length = s.pt.length ∧
      ∀ i, slotAt t.pt i =
        if page s.params addr.toNat ≤ i ∧ i ≤ page s.params (addr.toNat + len.toNat - 1) then
          some ⟨devOf s.params dev, addr, len.setWidth 33,
            BitVec.ofNat 32 (ptr.toNat + (max addr.toNat (pagebase s.params i) - addr.toNat))⟩
        else slotAt s.pt i

/-- R113, R115, R192: a `MAP` whose span has an occupied slot answers `ALREADY_MAPPED` and changes nothing. -/
def Obligations.MapConflictChangesNothing : Prop :=
  ∀ (dev : DevId) (addr len ptr : Field) (s : State) (i : Nat) (e : Entry),
    s.fsm = .idle → len ≠ 0 → addr.toNat + len.toNat ≤ s.params.top → ptr.toNat + len.toNat ≤ s.params.storeSize →
    page s.params addr.toNat ≤ i → i ≤ page s.params (addr.toNat + len.toNat - 1) → slotAt s.pt i = some e →
    exec (.map dev addr len ptr) s = .next { s with responses := s.responses ++ [.status .alreadyMapped] }

/-- R111: the preconditions of `MAP`, in their order. -/
def Obligations.MapPreconditionsInOrder : Prop :=
  ∀ (dev : DevId) (addr len ptr : Field) (s : State), s.fsm = .idle → addr.toNat < s.params.top →
    (len = 0 → exec (.map dev addr len ptr) s = .refused .mapZeroLength) ∧
    (len ≠ 0 → s.params.top < addr.toNat + len.toNat → exec (.map dev addr len ptr) s = .refused .mapBeyondTop) ∧
    (len ≠ 0 → addr.toNat + len.toNat ≤ s.params.top → s.params.storeSize < ptr.toNat + len.toNat →
      exec (.map dev addr len ptr) s = .refused .mapBufferRange)

/-- R116: two `MAP`s one after the other, neither refused, the first into a free span. Where the page spans are disjoint
and the second is free too, both succeed; where they share a page the second is rejected, with the table as the first
left it. -/
def Obligations.TwoMapsConflictByPage : Prop :=
  ∀ (d d' : DevId) (a n q a' n' q' : Field) (s : State),
    s.Inv → n ≠ 0 → a.toNat + n.toNat ≤ s.params.top → q.toNat + n.toNat ≤ s.params.storeSize →
    n' ≠ 0 → a'.toNat + n'.toNat ≤ s.params.top → q'.toNat + n'.toNat ≤ s.params.storeSize →
    (∀ i, page s.params a.toNat ≤ i → i ≤ page s.params (a.toNat + n.toNat - 1) → slotAt s.pt i = none) →
    (∀ i, page s.params a'.toNat ≤ i → i ≤ page s.params (a'.toNat + n'.toNat - 1) → slotAt s.pt i = none) →
    ∃ t u, exec (.map d a n q) s = .next t ∧ exec (.map d' a' n' q') t = .next u ∧
      ((page s.params (a.toNat + n.toNat - 1) < page s.params a'.toNat ∨
          page s.params (a'.toNat + n'.toNat - 1) < page s.params a.toNat) →
        u.responses = s.responses ++ [.status .ok, .status .ok]) ∧
      ((page s.params a'.toNat ≤ page s.params (a.toNat + n.toNat - 1) ∧
          page s.params a.toNat ≤ page s.params (a'.toNat + n'.toNat - 1)) →
        u.responses = s.responses ++ [.status .ok, .status .alreadyMapped] ∧ u.pt = t.pt)

/-- R116: "`MAP` with the same operands as an earlier successful `MAP` returns `ALREADY_MAPPED`", however many steps lie
between. -/
def Obligations.MapRepeatedIsRejected : Prop :=
  ∀ (dev : DevId) (addr len ptr : Field) (s t u : State) (steps : List State),
    exec (.map dev addr len ptr) s = .next t → t.responses = s.responses ++ [.status .ok] →
    List.IsChain (fun v w => step v = .next w) (t :: (steps ++ [u])) → s.Inv → u.fsm = .idle →
    exec (.map dev addr len ptr) u = .next { u with responses := u.responses ++ [.status .alreadyMapped] }

/-! ## The page table and translation -/

/-- R25: "a page slot holds at most one entry at any time", so the spans of two mappings of a table share no slot. -/
def Obligations.MappingsShareNoSlot : Prop :=
  ∀ (p : Params) (pt : List Slot) (m m' : Mapping) (i : Nat),
    m.mapped p pt = true → m'.mapped p pt = true → m.inSpan p i = true → m'.inSpan p i = true → m = m'

/-- R56, R57: an address is a `HIT` exactly when the extent of some mapping contains it; that mapping is the only one,
and the store address is `M.ptr + (a − M.base)`. -/
def Obligations.HitIsTheCoveringMapping : Prop :=
  ∀ (p : Params) (pt : List Slot) (a : Nat), p.Legal → tableOk p pt = true →
    ((xlate p pt a).storeAddr.isSome = true ↔ ∃ m : Mapping, m.mapped p pt = true ∧ m.covers a = true) ∧
    ∀ m : Mapping, m.mapped p pt = true → m.covers a = true →
      storeAddrOf p pt a = m.ptr.toNat + (a - m.base.toNat) ∧
      ∀ m' : Mapping, m'.mapped p pt = true → m'.covers a = true → m' = m

/-- R55 and R137: the class of a bus address, and what a fault there reports, from the slot of its page. The addresses
that `BELOW_BASE` and `BEYOND_EXTENT` report are decisions of the spec where its source is silent or disagrees with itself
(D14, D15; DEDUCED, log entry 20). -/
def Obligations.TranslationClasses : Prop :=
  ∀ (p : Params) (pt : List Slot) (a : Nat),
    (slotAt pt (a >>> p.pageBits) = none → xlate p pt a = .unmapped ∧ (xlate p pt a).faultAddr a = a) ∧
    ∀ e : Entry, slotAt pt (a >>> p.pageBits) = some e →
      (a < e.base.toNat → xlate p pt a = .belowBase e ∧ (xlate p pt a).faultAddr a = a) ∧
      (e.base.toNat + e.len.toNat ≤ a →
        xlate p pt a = .beyondExtent e ∧ (xlate p pt a).faultAddr a = e.base.toNat + e.len.toNat) ∧
      (e.base.toNat ≤ a → a < e.base.toNat + e.len.toNat →
        xlate p pt a =
          .hit e (e.ptr.toNat + (a - max e.base.toNat ((a >>> p.pageBits) <<< p.pageBits))))

/-- R133: a chunk lies wholly inside one mapping: each of its bytes is a `HIT` through that mapping, and the store
addresses are contiguous. -/
def Obligations.ChunkIsContiguous : Prop :=
  ∀ (p : Params) (pt : List Slot) (x : Xfer) (e : Entry) (sa : Nat), p.Legal → tableOk p pt = true →
    xlate p pt x.cur = .hit e sa →
    ∃ m : Mapping, m.mapped p pt = true ∧ e = m.entry p (page p x.cur) ∧
      ∀ k, k < chunkLen e x →
        m.covers (x.cur + k) = true ∧ xlate p pt (x.cur + k) = .hit (m.entry p (page p (x.cur + k))) (sa + k) ∧
        sa + k < p.storeSize ∧ x.cur + k < p.top

/-- R145: a fault after at least one byte has moved reports the first byte not moved. -/
def Obligations.FaultAfterProgressNamesFirstUnmoved : Prop :=
  ∀ (p : Params) (pt : List Slot) (a k f : Nat), p.Legal → tableOk p pt = true → 1 ≤ k →
    allHits p pt a k = true → faultsAt p pt (a + k) f = true → f = a + k

/-- R26: a slot changes from `EMPTY` to an entry only by a successful `MAP`, and no step changes or clears a slot that
holds an entry. It holds in every state. -/
def Obligations.SlotsAreWriteOnce : Prop :=
  ∀ (s t : State) (i : Nat), step s = .next t →
    (∀ e, slotAt s.pt i = some e → slotAt t.pt i = some e) ∧
    (slotAt t.pt i ≠ slotAt s.pt i →
      ∃ r b rest dev addr len ptr, s.input = ⟨.request r, b⟩ :: rest ∧
        decode s.params r = .ok (.map dev addr len ptr) ∧ t.responses = s.responses ++ [.status .ok])

/-- R27: the slot's bits give the slot back, `EMPTY` is all zeros, and the fields stand where the rule puts them. -/
def Obligations.SlotLayout : Prop :=
  (∀ sl : Slot, slotOfImage (slotImage sl) = sl) ∧ slotImage none = 0 ∧
  ∀ e : Entry, (slotImage (some e)).toNat =
    1 + 2 * e.dev.toNat + 2 ^ 17 * e.base.toNat + 2 ^ 49 * e.len.toNat + 2 ^ 82 * e.ptr.toNat

/-! ## The transfer engine -/

/-- R139: the engine is equivalent to the byte-serial form. Both forms of a scalar read are given the same draws (DESIGN
CHOICE, log entry 9). -/
def Obligations.EngineIsByteSerial : Prop :=
  ∀ (s : State) (dir : AccessKind) (start cnt : Nat) (data : List Byte) (want : Want),
    s.Inv → start < s.params.top → (dir = .write → data.length = cnt) →
    transfer dir start cnt data want s =
      finishSerial s dir want (serialTransfer s.params s.pt dir cnt start data s.store [])

/-- R136: `done + rem = cnt` and `cur = start + done` in every phase, `cur` never decreases while it has a value, and a
`COPY` moves it on. -/
def Obligations.CursorOnlyIncreases : Prop :=
  ∀ (s t : State), s.fsm.agrees = true → fsmStep s = .next t →
    t.fsm.agrees = true ∧
    (∀ c c', s.fsm.cur = some c → t.fsm.cur = some c' → c ≤ c') ∧
    (∀ x chunk sptr, s.fsm = .copy x chunk sptr → t.fsm.cur = some (x.cur + chunk) ∧ 1 ≤ chunk)

/-- R136: "A transfer never hangs". No request, in any state, runs out of the phases that the rule allows it, and
none reads a working register in `IDLE` (R30, log entries 10 and 26). -/
def Obligations.TransfersNeverHang : Prop :=
  ∀ (i : Instr) (s : State), exec i s ≠ .fault .transferUnfinished ∧ exec i s ≠ .fault .fsmIdle

/-- R144: a good state never faults on a request, and faults on a step only after the notifier has ended the system.
The four faults are the model's (log entries 8, 10, 15 and 26). -/
def Obligations.GoodStatesDoNotFault : Prop :=
  ∀ (s : State), s.Inv → (∀ (i : Instr) (f : Fault), exec i s ≠ .fault f) ∧
    ∀ f : Fault, step s = .fault f → f = .systemEnded ∧ s.ended = true

/-- R138: a transfer is refused as `TransferBeyondTop` exactly when its bytes up to TOP − 1 are all `HIT`s and it has
bytes left at TOP. -/
def Obligations.TransferBeyondTopRefused : Prop :=
  ∀ (i : Instr) (s : State), s.Inv → isTransfer i = true → i.wellFormed s.params = true →
    (exec i s = .refused .transferBeyondTop ↔
      s.params.top < (moveRange i).1 + (moveRange i).2 ∧
        allHits s.params s.pt (moveRange i).1 (s.params.top - (moveRange i).1) = true)

/-- R194: a transfer emits no event where every lookup is a `HIT`, and otherwise exactly one, of its own kind; `MAP` and
`DUMP` emit none. -/
def Obligations.OneEventPerFaultingTransfer : Prop :=
  ∀ (i : Instr) (s t : State), s.Inv → exec i s = .next t →
    (isTransfer i = false → t.trace = s.trace) ∧
    (isTransfer i = true → allHits s.params s.pt (moveRange i).1 (moveRange i).2 = true → t.trace = s.trace) ∧
    (isTransfer i = true → allHits s.params s.pt (moveRange i).1 (moveRange i).2 = false →
      ∃ f, t.trace = s.trace ++ [⟨f, accessKindOf i⟩])

/-- R202: where the notifier answers the event of a faulting request with a request of its own, it is refused.
The reaction list is the model's (log entry 7). -/
def Obligations.ReentrantRequestRefused : Prop :=
  ∀ (i : Instr) (s : State) (k f : Nat), s.Inv → isTransfer i = true → i.wellFormed s.params = true →
    k < (moveRange i).2 → allHits s.params s.pt (moveRange i).1 k = true →
    faultsAt s.params s.pt ((moveRange i).1 + k) f = true → nextReaction s = .issuesRequest →
    exec i s = .refused .reentrantRequest

/-- R239, R196, as the model reads them (log entry 8): where the notifier ends the system on the event, the request is
complete up to its fault point (a write has written its bytes before it and no other, a read none), no response follows,
and no step does. Which bytes a scalar write sends where the order is `big` is the model's reading (DEDUCED, log entry 5). -/
def Obligations.NotifierEndsTheSystem : Prop :=
  ∀ (i : Instr) (s : State) (k f : Nat), s.Inv → s.refused = false → isTransfer i = true →
    i.wellFormed s.params = true →
    k < (moveRange i).2 → allHits s.params s.pt (moveRange i).1 k = true →
    faultsAt s.params s.pt ((moveRange i).1 + k) f = true → nextReaction s = .endsSystem →
    ∃ t, exec i s = .next t ∧
      t = { s with
        store := storeThrough s.params s.pt s.store (moveRange i).1 ((dataOf s.params.scalarOrder i).take k)
        trace := s.trace ++ [⟨f, accessKindOf i⟩]
        ended := true } ∧
      step t = .fault .systemEnded

/-- R196: what the notifier does never changes the block's state, except where it ends the whole system. The responses are
compared too, and R164 makes the unmoved bytes of a scalar read free: that the two runs, at one counter, draw the same
bytes is the model's choice (DESIGN CHOICE, log entry 9). -/
def Obligations.NotifierNeverChangesTheBlock : Prop :=
  ∀ (i : Instr) (s t t' : State) (l : List Reaction), exec i s = .next t → exec i (s.withNotifier l) = .next t' →
    t.ended = false → t'.ended = false → t' = t.withNotifier l

/-- R22, R27: "It is compared with nothing and used by no transfer": with other device identities in the table, every
request answers the same, moves the same bytes and emits the same events. R164 makes the unmoved bytes of a scalar read
free: that the two runs, at one counter, draw the same bytes is the model's choice (DESIGN CHOICE, log entry 9). -/
def Obligations.DeviceIdentityIsNeverRead : Prop :=
  ∀ (g : DevId → DevId) (i : Instr) (s t : State), exec i s = .next t →
    ∃ t', exec i { s with pt := relabelDevs g s.pt } = .next t' ∧ t'.responses = t.responses ∧ t'.store = t.store ∧
      t'.trace = t.trace ∧ t'.drawCount = t.drawCount

/-! ## READ and WRITE -/

/-- R140, R144: a `READ` of `HIT`s only answers the bytes at its addresses, each through its mapping, and changes nothing
else. -/
def Obligations.ReadAnswersMappedBytes : Prop :=
  ∀ (addr cnt : Field) (s : State), s.Inv → s.ended = false → addr.toNat < s.params.top →
    allHits s.params s.pt addr.toNat cnt.toNat = true →
    exec (.read addr cnt) s =
      .next { s with responses := s.responses ++ [.bytes ((s.busBytes addr.toNat cnt.toNat).map some)] }

/-- R140, R137, R144: a `READ` with a fault at its byte `k` answers the `k` bytes before it and `None` for the rest, emits
the one event, and changes nothing else. -/
def Obligations.ReadStopsAtFault : Prop :=
  ∀ (addr cnt : Field) (s : State) (k f : Nat), s.Inv → s.ended = false → k < cnt.toNat →
    allHits s.params s.pt addr.toNat k = true → faultsAt s.params s.pt (addr.toNat + k) f = true →
    nextReaction s = .returns →
    exec (.read addr cnt) s =
      .next { s with
        trace := s.trace ++ [⟨f, .read⟩]
        responses := s.responses ++
          [.bytes ((s.busBytes addr.toNat k).map some ++ List.replicate (cnt.toNat - k) none)] }

/-- R141, R143: a count of 0 makes no lookup, moves nothing and emits nothing, whatever is mapped. -/
def Obligations.CountZeroMovesNothing : Prop :=
  ∀ (addr : Field) (s : State), s.fsm = .idle → s.ended = false → addr.toNat < s.params.top →
    exec (.read addr 0) s = .next { s with responses := s.responses ++ [.bytes []] } ∧
    exec (.write addr []) s = .next { s with responses := s.responses ++ [.completion] }

/-- R140: the requester's destination takes the moved bytes and keeps its old bytes past the fault point. -/
def Obligations.DestinationKeepsUnreadBytes : Prop :=
  ∀ (moved dst : List Byte) (rem : Nat), moved.length + rem ≤ dst.length →
    applyRead (readResponse moved rem) dst = moved ++ dst.drop moved.length

/-- R142, R69: a `WRITE` of `HIT`s only writes each byte to the store byte of its address, in increasing address order,
answers a completion, and changes nothing else. That a term of 2^32 bytes, which no request spells, completes too is the
model's choice (DESIGN CHOICE, log entry 25). -/
def Obligations.WriteStoresThroughMappings : Prop :=
  ∀ (addr : Field) (data : List Byte) (s : State), s.Inv → s.ended = false → addr.toNat < s.params.top →
    allHits s.params s.pt addr.toNat data.length = true →
    exec (.write addr data) s =
      .next { s with
        store := storeThrough s.params s.pt s.store addr.toNat data
        responses := s.responses ++ [.completion] }

/-- R142, R137, R144: a `WRITE` with a fault at its byte `k` has written the `k` bytes before it ("no rollback") and no
byte from it on, emits the one event, and changes nothing else. That a term of 2^32 or more bytes, which no request
spells, completes too is the model's choice (DESIGN CHOICE, log entry 25). -/
def Obligations.WriteStopsAtFault : Prop :=
  ∀ (addr : Field) (data : List Byte) (s : State) (k f : Nat), s.Inv → s.ended = false → k < data.length →
    allHits s.params s.pt addr.toNat k = true → faultsAt s.params s.pt (addr.toNat + k) f = true →
    nextReaction s = .returns →
    exec (.write addr data) s =
      .next { s with
        store := storeThrough s.params s.pt s.store addr.toNat (data.take k)
        trace := s.trace ++ [⟨f, .write⟩]
        responses := s.responses ++ [.completion] }

/-- R142, R33: after a `WRITE` or a `WRITEn`, every store byte that no address of its range translates to is as before. -/
def Obligations.WritesTouchOnlyTheirBytes : Prop :=
  ∀ (i : Instr) (s t : State) (b : Nat), s.Inv → exec i s = .next t →
    (isWrite i = true → ∀ j, j < (moveRange i).2 → (xlate s.params s.pt ((moveRange i).1 + j)).storeAddr ≠ some b) →
    storeRead t b = storeRead s b

/-- R140, R142, R115, R180, R162: what a request may change at all. Only `MAP` writes the page table, only `WRITE` and
`WRITEn` the store, only a transfer emits an event, only a scalar read draws; no request writes the parameters, the
refusal mark or the arrivals, and each ends in `IDLE`. It holds in every state. `drawCount` and
`ended` are the model's own fields (log entries 8 and 9). -/
def Obligations.FrameOfEveryRequest : Prop :=
  ∀ (i : Instr) (s t : State), exec i s = .next t →
    t.params = s.params ∧ t.refused = s.refused ∧ t.input = s.input ∧ t.fsm = .idle ∧
    ((∀ d a n q, i ≠ .map d a n q) → t.pt = s.pt) ∧
    (isWrite i = false → t.store = s.store) ∧
    (isTransfer i = false → t.trace = s.trace ∧ t.ended = s.ended) ∧
    ((∀ w a, i ≠ .readN w a) → t.drawCount = s.drawCount)

/-- R143: a `WRITE` into a mapped extent, then a `READ` of the same addresses, answers exactly the written bytes, with no
event. -/
def Obligations.WriteThenReadRoundTrip : Prop :=
  ∀ (addr : Field) (data : List Byte) (s : State) (m : Mapping), s.Inv → s.ended = false → data.length < 2 ^ 32 →
    m.mapped s.params s.pt = true → m.covers addr.toNat = true → addr.toNat + data.length ≤ m.stop →
    ∃ t u, exec (.write addr data) s = .next t ∧ exec (.read addr (BitVec.ofNat 32 data.length)) t = .next u ∧
      u.responses = s.responses ++ [.completion, .bytes (data.map some)] ∧ u.trace = s.trace

/-- R141 ("Crossing into an adjacent mapping"): a read of two adjacent mappings is the two buffers one after the other, with
no fault. -/
def Obligations.AdjacentMappingsConcatenate : Prop :=
  ∀ (m m' : Mapping) (cnt : Field) (s : State), s.Inv → s.ended = false → m.mapped s.params s.pt = true →
    m'.mapped s.params s.pt = true → m'.base.toNat = m.stop → cnt.toNat = m.len.toNat + m'.len.toNat →
    exec (.read m.base cnt) s =
      .next { s with
        responses := s.responses ++
          [.bytes ((Memory.readBytes s.params.store0 s.store m.ptr.toNat m.len.toNat ++
            Memory.readBytes s.params.store0 s.store m'.ptr.toNat m'.len.toNat).map some)] }

/-- R141 ("Reading one byte past a mapping"): with no mapping at `base + len`, a read of `len + 1` bytes from `base` moves
`len` bytes and emits `Notify(base + len, READ)`. -/
def Obligations.ReadOnePastMapping : Prop :=
  ∀ (m : Mapping) (cnt : Field) (s : State), s.Inv → s.ended = false → m.mapped s.params s.pt = true →
    m.stop < s.params.top → (∀ m' : Mapping, m'.mapped s.params s.pt = true → m'.covers m.stop = false) →
    cnt.toNat = m.len.toNat + 1 → nextReaction s = .returns →
    exec (.read m.base cnt) s =
      .next { s with
        trace := s.trace ++ [⟨m.stop, .read⟩]
        responses := s.responses ++
          [.bytes ((Memory.readBytes s.params.store0 s.store m.ptr.toNat m.len.toNat).map some ++ [none])] }

/-- R69: where two addresses of a `WRITE` are the same store byte, the data of the higher one is left in it. A term of 2^32 bytes,
which no request spells, is among them by log entry 25 (DESIGN CHOICE). -/
def Obligations.HigherAliasWins : Prop :=
  ∀ (addr : Field) (data : List Byte) (s t : State) (j : Nat) (b : Byte), s.Inv →
    allHits s.params s.pt addr.toNat data.length = true → exec (.write addr data) s = .next t → data[j]? = some b →
    (∀ j', j < j' → j' < data.length →
      storeAddrOf s.params s.pt (addr.toNat + j') ≠ storeAddrOf s.params s.pt (addr.toNat + j)) →
    storeRead t (storeAddrOf s.params s.pt (addr.toNat + j)) = b

/-! ## The scalar accessors -/

/-- R161, R162, R170 to R173: `READ8`, `READ16`, `READ32` and `READ64` of `HIT`s only answer the value whose byte `k` is the
byte at `addr + k`, and change nothing else. -/
def Obligations.ScalarReadAnswersLittleEndian : Prop :=
  ∀ (w : Width) (addr : Field) (s : State), s.Inv → s.ended = false → s.params.scalarOrder = .little →
    allHits s.params s.pt addr.toNat w.bytes = true →
    ∃ v : BitVec w.bits, exec (.readN w addr) s = .next { s with responses := s.responses ++ [.value w v] } ∧
      ∀ k, k < w.bytes → v.extractLsb' (8 * k) 8 = s.busByte (addr.toNat + k)

/-- R162, R164: a scalar read with a fault at its byte `k` answers a value whose low `k` bytes are the bytes moved and whose
other bytes are draws, each its own, and emits the one event. How draws are numbered is the model's (log entry 9). -/
def Obligations.ScalarReadDrawsUnmovedBytes : Prop :=
  ∀ (w : Width) (addr : Field) (s : State) (k f : Nat), s.Inv → s.ended = false → s.params.scalarOrder = .little →
    k < w.bytes → allHits s.params s.pt addr.toNat k = true → faultsAt s.params s.pt (addr.toNat + k) f = true →
    nextReaction s = .returns →
    ∃ v : BitVec w.bits, exec (.readN w addr) s =
        .next { s with
          trace := s.trace ++ [⟨f, .read⟩]
          responses := s.responses ++ [.value w v]
          drawCount := s.drawCount + (w.bytes - k) } ∧
      (∀ j, j < k → v.extractLsb' (8 * j) 8 = s.busByte (addr.toNat + j)) ∧
      ∀ j, k ≤ j → j < w.bytes → v.extractLsb' (8 * j) 8 = Config.draw (s.drawCount + (j - k))

/-- R165, R166, R174 to R177: `WRITE8`, `WRITE16`, `WRITE32` and `WRITE64` to `HIT`s only write byte `k` of the value to the
address `addr + k`, answer a completion, and change nothing else. -/
def Obligations.ScalarWriteStoresLittleEndian : Prop :=
  ∀ (w : Width) (addr : Field) (dw : DataWord) (s : State), s.Inv → s.ended = false → s.params.scalarOrder = .little →
    w.fits dw = true → allHits s.params s.pt addr.toNat w.bytes = true →
    exec (.writeN w addr dw) s =
      .next { s with
        store := storeThrough s.params s.pt s.store addr.toNat
          ((List.range w.bytes).map fun k => dw.extractLsb' (8 * k) 8)
        responses := s.responses ++ [.completion] }

/-- R167, R166: "A write straddling a fault boundary stores its low-order bytes (those at lower addresses) and drops the
rest." -/
def Obligations.ScalarWriteKeepsLowBytes : Prop :=
  ∀ (w : Width) (addr : Field) (dw : DataWord) (s : State) (k f : Nat), s.Inv → s.ended = false →
    s.params.scalarOrder = .little → w.fits dw = true → k < w.bytes →
    allHits s.params s.pt addr.toNat k = true → faultsAt s.params s.pt (addr.toNat + k) f = true →
    nextReaction s = .returns →
    exec (.writeN w addr dw) s =
      .next { s with
        store := storeThrough s.params s.pt s.store addr.toNat ((List.range k).map fun j => dw.extractLsb' (8 * j) 8)
        trace := s.trace ++ [⟨f, .write⟩]
        responses := s.responses ++ [.completion] }

/-- R166, R81, R88: a data word with a bit above the value is refused as `ReservedField`, by the decoder and by the
request. -/
def Obligations.ScalarWriteRefusesHighBits : Prop :=
  ∀ (w : Width) (addr : Field) (dw : DataWord), 2 ^ w.bits ≤ dw.toNat →
    (∀ (p : Params) (q : ReqWord), decodeWord p q = .ok (.writeN w addr) →
      decode p ⟨q, .word dw⟩ = .error .reservedField) ∧
    ∀ s : State, s.fsm = .idle → addr.toNat < s.params.top → exec (.writeN w addr dw) s = .refused .reservedField

/-- R168: `WRITEn a, v` then `READn a`, where the n bytes are mapped and do not alias one another, answers v with no event,
in either byte order (D16: "round-trip claims hold under either"). What the order `big` does is the model's reading
(DEDUCED, log entry 5). -/
def Obligations.ScalarRoundTrip : Prop :=
  ∀ (w : Width) (addr : Field) (dw : DataWord) (s : State), s.Inv → s.ended = false → w.fits dw = true →
    allHits s.params s.pt addr.toNat w.bytes = true → noAliases s.params s.pt addr.toNat w.bytes = true →
    ∃ t u, exec (.writeN w addr dw) s = .next t ∧ exec (.readN w addr) t = .next u ∧
      u.responses = s.responses ++ [.completion, .value w (dw.setWidth w.bits)] ∧ u.trace = s.trace

/-- R61: "a `READ8` at a + k after a `WRITE32` of v at a returns byte k of v". -/
def Obligations.ByteReadSeesWordWrite : Prop :=
  ∀ (addr : Field) (dw : DataWord) (s : State) (k : Nat), s.Inv → s.ended = false → s.params.scalarOrder = .little →
    Width.w32.fits dw = true → allHits s.params s.pt addr.toNat 4 = true →
    noAliases s.params s.pt addr.toNat 4 = true → k < 4 →
    ∃ t u, exec (.write32 addr dw) s = .next t ∧ exec (.read8 (addr + BitVec.ofNat 32 k)) t = .next u ∧
      u.responses = s.responses ++ [.completion, .value .w8 (dw.extractLsb' (8 * k) 8)]

/-! ## DUMP -/

/-- R180: `DUMP` answers the base and length of every occupied slot, in index order, and changes nothing else. -/
def Obligations.DumpListsOccupiedSlots : Prop :=
  ∀ (s : State), s.fsm = .idle → s.pt.length = s.params.npages →
    exec .dump s = .next { s with
      responses := s.responses ++
        [.records ((List.range s.params.npages).filterMap fun i => (slotAt s.pt i).map fun e => ⟨e.base, e.len⟩)] }

/-- R181: a mapping that occupies `k` slots appears as `k` identical consecutive records, after one record for each
occupied slot before its first; there are as many records as occupied slots, at most NPAGES. -/
def Obligations.DumpRepeatsEachMapping : Prop :=
  ∀ (p : Params) (pt : List Slot) (m : Mapping), p.Legal → tableOk p pt = true → m.mapped p pt = true →
    (dumpRecords pt).length = pt.countP Option.isSome ∧ (dumpRecords pt).length ≤ p.npages ∧
    ∃ pre post, dumpRecords pt = pre ++ List.replicate (m.last p + 1 - m.first p) ⟨m.base, m.len⟩ ++ post ∧
      pre.length = (List.range (m.first p)).countP fun i => (slotAt pt i).isSome

/-! ## Construction and invariants -/

/-- R36, R231: the state after construction. -/
def Obligations.ConstructionLeavesEmptyMachine : Prop :=
  ∀ (p : Params) (i a : Nat),
    (State.construct p).params = p ∧ (State.construct p).pt.length = p.npages ∧ slotAt (State.construct p).pt i = none ∧
    (State.construct p).fsm = .idle ∧ (State.construct p).trace = [] ∧ (State.construct p).refused = false ∧
    storeRead (State.construct p) a = storeByte0 p.store0 a ∧ xlate p (State.construct p).pt a = .unmapped

/-- R231: any transfer of at least one byte before the first `MAP` faults at its start address, once, with its own
kind. -/
def Obligations.FreshMachineFaultsAtStart : Prop :=
  ∀ (i : Instr) (p : Params), p.Legal → isTransfer i = true → i.wellFormed p = true → 1 ≤ (moveRange i).2 →
    nextReaction (State.construct p) = .returns →
    ∃ t, exec i (State.construct p) = .next t ∧ t.trace = [⟨(moveRange i).1, accessKindOf i⟩] ∧
      t.store = (State.construct p).store

/-- The invariant holds after construction with legal parameters, and so after reset (R8, R36). -/
def Obligations.ConstructionIsGood : Prop :=
  (∀ p : Params, p.Legal → (State.construct p).Inv) ∧ State.reset.Inv

/-- R22, R24, R25, R33, R34: every step from a good state leads to a good state: the occupancy invariant, device
identities of DevIdWidth bits, the store's canonical form, `IDLE` between requests, and bus addresses only in the events. -/
def Obligations.StepKeepsGoodStates : Prop :=
  ∀ (s t : State), s.Inv → step s = .next t → t.Inv

/-- R34, R8: a step only appends to the events and the responses, never changes the parameters and never sets the refusal
mark of a state that it leads to. It holds in every state. The record of the responses is the model's (DESIGN CHOICE, log
entry 18). -/
def Obligations.HistoryOnlyGrows : Prop :=
  ∀ (s t : State), step s = .next t →
    s.trace <+: t.trace ∧ s.responses <+: t.responses ∧ t.params = s.params ∧ t.refused = false

/-! ## The assembler -/

/-- R90: "A line whose mnemonic is not in rule R84 or rule R91 is refused by the assembler." -/
def Obligations.AssemblerRefusesUnknownMnemonic : Prop :=
  ∀ (devs : List Device) (mn : List Char) (ts : List Token),
    mn ∉ ["MAP", "READ", "WRITE", "DUMP", "READ8", "READ16", "READ32", "READ64", "WRITE8", "WRITE16", "WRITE32",
      "WRITE64", "DEVMAP"].map String.toList →
    assembleTokens devs (.word mn :: ts) = none

/-- R91: `DEVMAP dev, addr` expands to the `MAP` of the device's own buffer and length. The device is the first listed
with that identity: where the table lists two of one identity, which one is meant is the model's choice (log entry 32). The
tokens are the model's too (log entry 24). -/
def Obligations.DevmapExpandsToMap : Prop :=
  ∀ (devs : List Device) (d a : List Char) (dev : DevId) (addr : Field) (v : Device),
    numberIn 16 d = some dev → numberIn 32 a = some addr → devs.find? (fun u => u.dev == dev) = some v →
    assembleTokens devs [.word "DEVMAP".toList, .word d, .comma, .word a] = some (.map dev addr v.len v.ptr)
end

