-- ==== Sys2Proof/Laws/State.lean ====
section
/-! SUPPORT. One lemma for each field and update of the state, all by rfl. -/

namespace Sys2Proof.Machine

section
variable (s : State) (r : Response) (dir : AccessKind) (start cnt : Nat) (data : List Byte) (want : Want) (p : Params)

@[simp] theorem respond_params : (s.respond r).params = s.params := rfl
@[simp] theorem respond_pt : (s.respond r).pt = s.pt := rfl
@[simp] theorem respond_store : (s.respond r).store = s.store := rfl
@[simp] theorem respond_fsm : (s.respond r).fsm = s.fsm := rfl
@[simp] theorem respond_trace : (s.respond r).trace = s.trace := rfl
@[simp] theorem respond_refused : (s.respond r).refused = s.refused := rfl
@[simp] theorem respond_responses : (s.respond r).responses = s.responses ++ [r] := rfl
@[simp] theorem respond_input : (s.respond r).input = s.input := rfl
@[simp] theorem respond_drawCount : (s.respond r).drawCount = s.drawCount := rfl
@[simp] theorem respond_ended : (s.respond r).ended = s.ended := rfl

@[simp] theorem markRefused_params : (markRefused s).params = s.params := rfl
@[simp] theorem markRefused_pt : (markRefused s).pt = s.pt := rfl
@[simp] theorem markRefused_store : (markRefused s).store = s.store := rfl
@[simp] theorem markRefused_fsm : (markRefused s).fsm = s.fsm := rfl
@[simp] theorem markRefused_trace : (markRefused s).trace = s.trace := rfl
@[simp] theorem markRefused_refused : (markRefused s).refused = true := rfl
@[simp] theorem markRefused_responses : (markRefused s).responses = s.responses := rfl
@[simp] theorem markRefused_input : (markRefused s).input = s.input := rfl
@[simp] theorem markRefused_drawCount : (markRefused s).drawCount = s.drawCount := rfl
@[simp] theorem markRefused_ended : (markRefused s).ended = s.ended := rfl

@[simp] theorem startTransfer_params : (startTransfer s dir start cnt data want).params = s.params := rfl
@[simp] theorem startTransfer_pt : (startTransfer s dir start cnt data want).pt = s.pt := rfl
@[simp] theorem startTransfer_store : (startTransfer s dir start cnt data want).store = s.store := rfl
@[simp] theorem startTransfer_fsm :
    (startTransfer s dir start cnt data want).fsm = .lookup ⟨dir, start, cnt, start, 0, cnt, [], data, want⟩ := rfl
@[simp] theorem startTransfer_trace : (startTransfer s dir start cnt data want).trace = s.trace := rfl
@[simp] theorem startTransfer_refused : (startTransfer s dir start cnt data want).refused = s.refused := rfl
@[simp] theorem startTransfer_responses : (startTransfer s dir start cnt data want).responses = s.responses := rfl
@[simp] theorem startTransfer_input : (startTransfer s dir start cnt data want).input = s.input := rfl
@[simp] theorem startTransfer_drawCount : (startTransfer s dir start cnt data want).drawCount = s.drawCount := rfl
@[simp] theorem startTransfer_ended : (startTransfer s dir start cnt data want).ended = s.ended := rfl

@[simp] theorem construct_params : (State.construct p).params = p := rfl
@[simp] theorem construct_pt : (State.construct p).pt = List.replicate p.npages none := rfl
@[simp] theorem construct_store : (State.construct p).store = [] := rfl
@[simp] theorem construct_fsm : (State.construct p).fsm = .idle := rfl
@[simp] theorem construct_trace : (State.construct p).trace = [] := rfl
@[simp] theorem construct_refused : (State.construct p).refused = false := rfl
@[simp] theorem construct_responses : (State.construct p).responses = [] := rfl
@[simp] theorem construct_input : (State.construct p).input = [] := rfl
@[simp] theorem construct_drawCount : (State.construct p).drawCount = 0 := rfl
@[simp] theorem construct_ended : (State.construct p).ended = false := rfl

end

@[simp] theorem isIdle_idle : Fsm.isIdle .idle = true := rfl
@[simp] theorem isIdle_lookup (x : Xfer) : Fsm.isIdle (.lookup x) = false := rfl
@[simp] theorem isIdle_copy (x : Xfer) (c a : Nat) : Fsm.isIdle (.copy x c a) = false := rfl
@[simp] theorem isIdle_done (x : Xfer) : Fsm.isIdle (.done x) = false := rfl

@[simp] theorem isIdle_iff (f : Fsm) : f.isIdle = true ↔ f = .idle := by cases f <;> simp

@[simp] theorem readN_w8 (a : Field) : Instr.readN .w8 a = .read8 a := rfl
@[simp] theorem readN_w16 (a : Field) : Instr.readN .w16 a = .read16 a := rfl
@[simp] theorem readN_w32 (a : Field) : Instr.readN .w32 a = .read32 a := rfl
@[simp] theorem readN_w64 (a : Field) : Instr.readN .w64 a = .read64 a := rfl
@[simp] theorem writeN_w8 (a : Field) (dw : DataWord) : Instr.writeN .w8 a dw = .write8 a dw := rfl
@[simp] theorem writeN_w16 (a : Field) (dw : DataWord) : Instr.writeN .w16 a dw = .write16 a dw := rfl
@[simp] theorem writeN_w32 (a : Field) (dw : DataWord) : Instr.writeN .w32 a dw = .write32 a dw := rfl
@[simp] theorem writeN_w64 (a : Field) (dw : DataWord) : Instr.writeN .w64 a dw = .write64 a dw := rfl

/-- Every scalar read is the generic one of its width (R162, R170 to R173). -/
@[simp] theorem exec_readN (w : Width) (a : Field) (s : State) : exec (.readN w a) s = scalarRead w a s := by
  cases w <;> rfl

/-- Every scalar write is the generic one of its width (R166, R174 to R177). -/
@[simp] theorem exec_writeN (w : Width) (a : Field) (dw : DataWord) (s : State) :
    exec (.writeN w a dw) s = scalarWrite w a dw s := by
  cases w <;> rfl

end Sys2Proof.Machine
end

