-- ==== Sys2Proof/Laws/Decode.lean ====
section
/-! SUPPORT. The fields of a packed request word (R80), and the table decoder as the decoder (R82). -/

namespace Sys2Proof

section
variable (op : BitVec 4) (dev : DevId) (addr len ptr : Field)

theorem packWord_toNat : (packWord op dev addr len ptr).toNat =
    op.toNat * 2 ^ 124 + dev.toNat * 2 ^ 96 + addr.toNat * 2 ^ 64 + len.toNat * 2 ^ 32 + ptr.toNat := by
  have h1 := dev.isLt
  have h2 := addr.isLt
  have h3 := len.isLt
  have h4 := ptr.isLt
  simp only [packWord, BitVec.toNat_append]
  rw [← Nat.shiftLeft_add_eq_or_of_lt h4, ← Nat.shiftLeft_add_eq_or_of_lt h3,
    ← Nat.shiftLeft_add_eq_or_of_lt h2, ← Nat.shiftLeft_add_eq_or_of_lt h1,
    ← Nat.shiftLeft_add_eq_or_of_lt (b := BitVec.toNat 0#12) (i := 12) (by decide)]
  simp only [Nat.shiftLeft_eq, BitVec.toNat_ofNat]
  omega

@[simp] theorem opField_packWord : opField (packWord op dev addr len ptr) = op := by
  apply BitVec.eq_of_toNat_eq
  have := op.isLt; have := dev.isLt; have := addr.isLt; have := len.isLt; have := ptr.isLt
  simp only [opField, BitVec.extractLsb'_toNat, packWord_toNat, Nat.shiftRight_eq_div_pow]
  omega

@[simp] theorem rsvField_packWord : rsvField (packWord op dev addr len ptr) = 0 := by
  apply BitVec.eq_of_toNat_eq
  have := op.isLt; have := dev.isLt; have := addr.isLt; have := len.isLt; have := ptr.isLt
  have h0 : (0 : BitVec 12).toNat = 0 := rfl
  simp only [rsvField, BitVec.extractLsb'_toNat, packWord_toNat, Nat.shiftRight_eq_div_pow, h0]
  omega

@[simp] theorem devField_packWord : devField (packWord op dev addr len ptr) = dev := by
  apply BitVec.eq_of_toNat_eq
  have := op.isLt; have := dev.isLt; have := addr.isLt; have := len.isLt; have := ptr.isLt
  simp only [devField, BitVec.extractLsb'_toNat, packWord_toNat, Nat.shiftRight_eq_div_pow]
  omega

@[simp] theorem addrField_packWord : addrField (packWord op dev addr len ptr) = addr := by
  apply BitVec.eq_of_toNat_eq
  have := op.isLt; have := dev.isLt; have := addr.isLt; have := len.isLt; have := ptr.isLt
  simp only [addrField, BitVec.extractLsb'_toNat, packWord_toNat, Nat.shiftRight_eq_div_pow]
  omega

@[simp] theorem lenField_packWord : lenField (packWord op dev addr len ptr) = len := by
  apply BitVec.eq_of_toNat_eq
  have := op.isLt; have := dev.isLt; have := addr.isLt; have := len.isLt; have := ptr.isLt
  simp only [lenField, BitVec.extractLsb'_toNat, packWord_toNat, Nat.shiftRight_eq_div_pow]
  omega

@[simp] theorem ptrField_packWord : ptrField (packWord op dev addr len ptr) = ptr := by
  apply BitVec.eq_of_toNat_eq
  have := op.isLt; have := dev.isLt; have := addr.isLt; have := len.isLt; have := ptr.isLt
  simp only [ptrField, BitVec.extractLsb'_toNat, packWord_toNat, Nat.shiftRight_eq_div_pow]
  omega

end

/-- A request word whose reserved bits are 0 is the pack of its fields (R80). -/
theorem packWord_fields {q : ReqWord} (h : rsvField q = 0) :
    packWord (opField q) (devField q) (addrField q) (lenField q) (ptrField q) = q := by
  apply BitVec.eq_of_toNat_eq
  have hr := congrArg BitVec.toNat h
  have hq := q.isLt
  have h0 : (0 : BitVec 12).toNat = 0 := rfl
  simp only [rsvField, BitVec.extractLsb'_toNat, Nat.shiftRight_eq_div_pow, h0] at hr
  simp only [packWord_toNat, opField, devField, addrField, lenField, ptrField, BitVec.extractLsb'_toNat,
    Nat.shiftRight_eq_div_pow]
  omega

@[simp] theorem bytesOfNat_length (n x : Nat) : (bytesOfNat n x).length = n := by
  induction n generalizing x with
  | zero => rfl
  | succ n ih => simp [bytesOfNat, ih]

/-- The table decoder reads what the decoder reads from the same bits on the ports (R82). -/
theorem decodeTableWord_eq_decode (nbits w : Nat) :
    decodeTableWord nbits w = (decode Config.reference (tableRequest Config.reference w)).toOption := by
  simp only [decodeTableWord, tableRequest, decode]
  generalize BitVec.ofNat 128 w = q
  generalize w / 2 ^ 128 = x
  generalize hd : decodeWord Config.reference q = d
  cases d with
  | error e => simp only [hd]; rfl
  | ok h =>
    simp only [hd]
    cases h with
    | map dev addr len ptr => rfl
    | read addr cnt => rfl
    | write addr cnt => 
      show some (Instr.write addr (bytesOfNat cnt.toNat x)) =
        (if (bytesOfNat cnt.toNat x).length = cnt.toNat then Except.ok (Instr.write addr (bytesOfNat cnt.toNat x))
          else Except.error DecodeError.dataOperand).toOption
      rw [if_pos (bytesOfNat_length _ _)]
      rfl
    | dump => rfl
    | readN w addr => rfl
    | writeN w addr => rfl

end Sys2Proof
end

