-- ==== Sys2Proof/Laws/Memory.lean ====
section
/-! SUPPORT. What the operations over the store do (R12, R33), and that they keep its canonical form. -/

namespace Sys2Proof.Machine

variable {z : StoreImage} {p : Params} {m : Memory}

/-! ## Cells -/

theorem lookupCell_insertCell (a b : Nat) (v : Byte) (m : Memory) :
    lookupCell (insertCell a v m) b = if a = b then some v else lookupCell m b := by
  induction m with
  | nil => simp [insertCell, lookupCell]
  | cons c m ih =>
    simp only [insertCell]
    split
    · simp [lookupCell]
    · split
      · rename_i h; subst h; simp only [lookupCell]; split <;> rfl
      · simp only [lookupCell, ih]
        by_cases h : c.1 = b
        · have : a ≠ b := by rintro rfl; exact absurd h.symm ‹_›
          simp [h, this]
        · simp [h]

/-- Nothing is listed below the address from which the list rises. -/
theorem lookupCell_of_rising {lo a : Nat} {m : Memory} (h : risingFrom lo m = true) (ha : a < lo) :
    lookupCell m a = none := by
  induction m generalizing lo with
  | nil => rfl
  | cons c m ih =>
    simp only [risingFrom, Bool.and_eq_true, decide_eq_true_eq] at h
    have hc : c.1 ≠ a := by omega
    simp only [lookupCell, hc, if_false]
    exact ih h.2 (by omega)

theorem lookupCell_eraseCell {lo : Nat} {m : Memory} (h : risingFrom lo m = true) (a b : Nat) :
    lookupCell (eraseCell a m) b = if a = b then none else lookupCell m b := by
  induction m generalizing lo with
  | nil => simp [eraseCell, lookupCell]
  | cons c m ih =>
    simp only [risingFrom, Bool.and_eq_true, decide_eq_true_eq] at h
    simp only [eraseCell]
    split
    · rename_i hc; subst hc
      split
      · rename_i hb; subst hb; exact lookupCell_of_rising h.2 (by omega)
      · rename_i hb; simp [lookupCell, hb]
    · simp only [lookupCell, ih h.2]
      by_cases hb : c.1 = b
      · have : a ≠ b := by rintro rfl; exact absurd hb ‹_›
        simp [hb, this]
      · simp [hb]

theorem risingFrom_mono {lo lo' : Nat} {m : Memory} (h : risingFrom lo m = true) (hl : lo' ≤ lo) :
    risingFrom lo' m = true := by
  cases m with
  | nil => rfl
  | cons c m =>
    simp only [risingFrom, Bool.and_eq_true, decide_eq_true_eq] at h ⊢
    exact ⟨by omega, h.2⟩

theorem risingFrom_insertCell {lo a : Nat} {v : Byte} {m : Memory} (h : risingFrom lo m = true) (ha : lo ≤ a) :
    risingFrom lo (insertCell a v m) = true := by
  induction m generalizing lo with
  | nil => simp [insertCell, risingFrom, ha]
  | cons c m ih =>
    simp only [risingFrom, Bool.and_eq_true, decide_eq_true_eq] at h
    simp only [insertCell]
    split
    · simp only [risingFrom, Bool.and_eq_true, decide_eq_true_eq]; exact ⟨ha, by omega, h.2⟩
    · split
      · rename_i hac; subst hac
        simp only [risingFrom, Bool.and_eq_true, decide_eq_true_eq]; exact ⟨ha, h.2⟩
      · simp only [risingFrom, Bool.and_eq_true, decide_eq_true_eq]; exact ⟨h.1, ih h.2 (by omega)⟩

theorem risingFrom_eraseCell {lo a : Nat} {m : Memory} (h : risingFrom lo m = true) :
    risingFrom lo (eraseCell a m) = true := by
  induction m generalizing lo with
  | nil => rfl
  | cons c m ih =>
    simp only [risingFrom, Bool.and_eq_true, decide_eq_true_eq] at h
    simp only [eraseCell]
    split
    · exact risingFrom_mono h.2 (by omega)
    · simp only [risingFrom, Bool.and_eq_true, decide_eq_true_eq]; exact ⟨h.1, ih h.2⟩

theorem mem_insertCell {a : Nat} {v : Byte} {c : Host.Cell} {m : Memory} (h : c ∈ insertCell a v m) :
    c = (a, v) ∨ c ∈ m := by
  induction m with
  | nil => simpa [insertCell] using h
  | cons d m ih =>
    simp only [insertCell] at h
    split at h
    · simpa using h
    · split at h
      · rcases List.mem_cons.1 h with h | h
        · exact .inl h
        · exact .inr (List.mem_cons_of_mem _ h)
      · rcases List.mem_cons.1 h with h | h
        · exact .inr (by simp [h])
        · rcases ih h with h | h
          · exact .inl h
          · exact .inr (List.mem_cons_of_mem _ h)

theorem mem_eraseCell {a : Nat} {c : Host.Cell} {m : Memory} (h : c ∈ eraseCell a m) : c ∈ m := by
  induction m with
  | nil => simp [eraseCell] at h
  | cons d m ih =>
    simp only [eraseCell] at h
    split at h
    · exact List.mem_cons_of_mem _ h
    · rcases List.mem_cons.1 h with h | h
      · simp [h]
      · exact List.mem_cons_of_mem _ (ih h)

/-! ## The canonical form -/

/-- The canonical form, as a proposition. -/
theorem wf_iff : Memory.wf p m = true ↔
    risingFrom 0 m = true ∧ ∀ c ∈ m, c.1 < p.storeSize ∧ c.2 ≠ storeByte0 p.store0 c.1 := by
  simp [Memory.wf, List.all_eq_true]

@[simp] theorem wf_nil : Memory.wf p [] = true := rfl

/-- The store of a constructed machine is in canonical form. -/
theorem wf_construct (p : Params) : Memory.wf p (State.construct p).store = true := rfl

/-- A write inside the store keeps the canonical form. -/
theorem wf_write {a : Nat} {b : Byte} (h : Memory.wf p m = true) (ha : a < p.storeSize) :
    Memory.wf p (Memory.write p.store0 m a b) = true := by
  rw [wf_iff] at h ⊢
  unfold Memory.write
  split
  · exact ⟨risingFrom_eraseCell h.1, fun c hc => h.2 c (mem_eraseCell hc)⟩
  · rename_i hb
    refine ⟨risingFrom_insertCell h.1 (Nat.zero_le _), fun c hc => ?_⟩
    rcases mem_insertCell hc with rfl | hc
    · exact ⟨ha, hb⟩
    · exact h.2 c hc

/-- Writing bytes inside the store keeps the canonical form. -/
theorem wf_writeBytes {bs : List Byte} {sa : Nat} (h : Memory.wf p m = true) (hs : sa + bs.length ≤ p.storeSize) :
    Memory.wf p (Memory.writeBytes p.store0 m sa bs) = true := by
  induction bs generalizing m sa with
  | nil => exact h
  | cons b bs ih =>
    simp only [List.length_cons] at hs
    exact ih (wf_write h (by omega)) (by omega)

/-! ## Reading after writing -/

/-- A byte after a write of a byte: the written one at its address, the old one elsewhere. -/
theorem read_write (h : risingFrom 0 m = true) (a b : Nat) (v : Byte) :
    Memory.read z (Memory.write z m a v) b = if a = b then v else Memory.read z m b := by
  unfold Memory.write
  split
  · rename_i hv
    simp only [Memory.read, lookupCell_eraseCell h]
    split
    · rename_i hab; subst hab; simp [hv]
    · rfl
  · simp only [Memory.read, lookupCell_insertCell]
    split <;> rfl

theorem risingFrom_write (h : risingFrom 0 m = true) (a : Nat) (v : Byte) :
    risingFrom 0 (Memory.write z m a v) = true := by
  unfold Memory.write
  split
  · exact risingFrom_eraseCell h
  · exact risingFrom_insertCell h (Nat.zero_le _)

theorem risingFrom_writeBytes (h : risingFrom 0 m = true) (sa : Nat) (bs : List Byte) :
    risingFrom 0 (Memory.writeBytes z m sa bs) = true := by
  induction bs generalizing m sa with
  | nil => exact h
  | cons b bs ih => exact ih (risingFrom_write h sa b) (sa + 1)

/-- A byte after a write of bytes: byte `b - sa` of them inside their range, the old one outside. -/
theorem read_writeBytes (h : risingFrom 0 m = true) (sa b : Nat) (bs : List Byte) :
    Memory.read z (Memory.writeBytes z m sa bs) b =
      if sa ≤ b ∧ b < sa + bs.length then (bs[b - sa]?).getD 0 else Memory.read z m b := by
  induction bs generalizing m sa with
  | nil => simp [Memory.writeBytes]
  | cons v bs ih =>
    simp only [Memory.writeBytes, ih (risingFrom_write h sa v), read_write h, List.length_cons]
    by_cases hb : sa = b
    · subst hb; simp
    · by_cases hin : sa ≤ b ∧ b < sa + (bs.length + 1)
      · have h1 : sa + 1 ≤ b ∧ b < sa + 1 + bs.length := by omega
        have h2 : b - sa = b - (sa + 1) + 1 := by omega
        simp only [if_pos h1, if_pos hin, h2, List.getElem?_cons_succ]
      · have h1 : ¬ (sa + 1 ≤ b ∧ b < sa + 1 + bs.length) := by omega
        simp only [if_neg h1, if_neg hin, if_neg hb]

@[simp] theorem readBytes_length (z : StoreImage) (m : Memory) (sa n : Nat) :
    (Memory.readBytes z m sa n).length = n := by
  induction n generalizing sa with
  | zero => rfl
  | succ n ih => simp [Memory.readBytes, ih]

/-- `StoreRead(s, n)` is the bytes at `s`, …, `s + n − 1` (R12). -/
theorem readBytes_eq_map (z : StoreImage) (m : Memory) (sa n : Nat) :
    Memory.readBytes z m sa n = (List.range n).map fun k => Memory.read z m (sa + k) := by
  induction n generalizing sa with
  | zero => rfl
  | succ n ih =>
    rw [Memory.readBytes, ih, List.range_succ_eq_map]
    simp only [List.map_cons, List.map_map, Nat.add_zero]
    congr 1
    refine List.map_congr_left fun k _ => ?_
    simp only [Function.comp, Nat.succ_eq_add_one]
    congr 1; omega

/-- Two stores in canonical form with the same bytes are the same list. -/
theorem eq_of_lookupCell {lo : Nat} {m m' : Memory} (h : risingFrom lo m = true) (h' : risingFrom lo m' = true)
    (he : ∀ a, lookupCell m a = lookupCell m' a) : m = m' := by
  induction m generalizing lo m' with
  | nil =>
    cases m' with
    | nil => rfl
    | cons c m' => have := he c.1; simp [lookupCell] at this
  | cons c m ih =>
    cases m' with
    | nil => have := he c.1; simp [lookupCell] at this
    | cons d m' =>
      simp only [risingFrom, Bool.and_eq_true, decide_eq_true_eq] at h h'
      have hc := he c.1
      have hd := he d.1
      simp only [lookupCell, if_true] at hc hd
      have hcd : c.1 = d.1 := by
        rcases Nat.lt_trichotomy c.1 d.1 with hlt | heq | hgt
        · rw [if_neg (by omega), lookupCell_of_rising h'.2 (by omega)] at hc; simp at hc
        · exact heq
        · rw [if_neg (by omega), lookupCell_of_rising h.2 (by omega)] at hd; simp at hd
      rw [if_pos hcd.symm] at hc
      have hcd2 : c = d := Prod.ext hcd (Option.some.inj hc)
      subst hcd2
      congr 1
      refine ih h.2 h'.2 fun a => ?_
      by_cases ha : c.1 = a
      · rw [lookupCell_of_rising h.2 (by omega), lookupCell_of_rising h'.2 (by omega)]
      · have := he a
        simpa [lookupCell, ha] using this

end Sys2Proof.Machine
end

