-- ==== Sys2Proof/Laws/PerInstr.lean ====
section
/-! SUPPORT. Facts about each request as a term: its word matches its row of the opcode table (R85). -/

namespace Sys2Proof.Laws

/-- The mask of a row, in the fields of the word (R80, R85). -/
theorem packWord_and_fields (o o' : BitVec 4) (d d' : DevId) (a a' l l' q q' : Field) (r' : BitVec 12) :
    packWord o d a l q &&& (o' ++ r' ++ d' ++ a' ++ l' ++ q') =
      packWord (o &&& o') (d &&& d') (a &&& a') (l &&& l') (q &&& q') := by
  unfold packWord
  show (o ++ 0#12 ++ d ++ a ++ l ++ q : BitVec (4 + 12 + 16 + 32 + 32 + 32)) &&& (o' ++ r' ++ d' ++ a' ++ l' ++ q') = _
  rw [BitVec.and_append, BitVec.and_append, BitVec.and_append, BitVec.and_append, BitVec.and_append, BitVec.zero_and]

/-- The word of a request, cut by the mask of its row, is the pattern of its row: "A word matches a row when
(q AND mask) = match" (R85). -/
def RowMatch.Statement (i : Instr) : Prop := i.word &&& i.mask = i.pattern

theorem mask_map : (0xFFFF0000_00000000_00000000_00000000#128 : ReqWord) =
    (0xF#4 ++ 0xFFF#12 ++ 0#16 ++ 0#32 ++ 0#32 ++ 0#32) := by decide

theorem mask_transfer : (0xFFFFFFFF_00000000_00000000_FFFFFFFF#128 : ReqWord) =
    (0xF#4 ++ 0xFFF#12 ++ 0xFFFF#16 ++ 0#32 ++ 0#32 ++ 0xFFFFFFFF#32) := by decide

theorem mask_scalar : (0xFFFFFFFF_00000000_FFFFFFFF_FFFFFFFF#128 : ReqWord) =
    (0xF#4 ++ 0xFFF#12 ++ 0xFFFF#16 ++ 0#32 ++ 0xFFFFFFFF#32 ++ 0xFFFFFFFF#32) := by decide

theorem RowMatch.map (dev : DevId) (addr len ptr : Field) : RowMatch.Statement (.map dev addr len ptr) := by
  simp only [RowMatch.Statement, Instr.word, Instr.mask, Instr.pattern, Instr.opcode, mask_map, packWord_and_fields]
  simp

theorem RowMatch.read (addr cnt : Field) : RowMatch.Statement (.read addr cnt) := by
  simp only [RowMatch.Statement, Instr.word, Instr.mask, Instr.pattern, Instr.opcode, mask_transfer, packWord_and_fields]
  simp

theorem RowMatch.write (addr : Field) (data : List Byte) : RowMatch.Statement (.write addr data) := by
  simp only [RowMatch.Statement, Instr.word, Instr.mask, Instr.pattern, Instr.opcode, mask_transfer, packWord_and_fields]
  simp

theorem RowMatch.dump : RowMatch.Statement .dump := by
  simp only [RowMatch.Statement]
  decide

theorem RowMatch.read8 (addr : Field) : RowMatch.Statement (.read8 addr) := by
  simp only [RowMatch.Statement, Instr.word, Instr.mask, Instr.pattern, Instr.opcode, mask_scalar, packWord_and_fields]
  simp

theorem RowMatch.read16 (addr : Field) : RowMatch.Statement (.read16 addr) := by
  simp only [RowMatch.Statement, Instr.word, Instr.mask, Instr.pattern, Instr.opcode, mask_scalar, packWord_and_fields]
  simp

theorem RowMatch.read32 (addr : Field) : RowMatch.Statement (.read32 addr) := by
  simp only [RowMatch.Statement, Instr.word, Instr.mask, Instr.pattern, Instr.opcode, mask_scalar, packWord_and_fields]
  simp

theorem RowMatch.read64 (addr : Field) : RowMatch.Statement (.read64 addr) := by
  simp only [RowMatch.Statement, Instr.word, Instr.mask, Instr.pattern, Instr.opcode, mask_scalar, packWord_and_fields]
  simp

theorem RowMatch.write8 (addr : Field) (dw : DataWord) : RowMatch.Statement (.write8 addr dw) := by
  simp only [RowMatch.Statement, Instr.word, Instr.mask, Instr.pattern, Instr.opcode, mask_scalar, packWord_and_fields]
  simp

theorem RowMatch.write16 (addr : Field) (dw : DataWord) : RowMatch.Statement (.write16 addr dw) := by
  simp only [RowMatch.Statement, Instr.word, Instr.mask, Instr.pattern, Instr.opcode, mask_scalar, packWord_and_fields]
  simp

theorem RowMatch.write32 (addr : Field) (dw : DataWord) : RowMatch.Statement (.write32 addr dw) := by
  simp only [RowMatch.Statement, Instr.word, Instr.mask, Instr.pattern, Instr.opcode, mask_scalar, packWord_and_fields]
  simp

theorem RowMatch.write64 (addr : Field) (dw : DataWord) : RowMatch.Statement (.write64 addr dw) := by
  simp only [RowMatch.Statement, Instr.word, Instr.mask, Instr.pattern, Instr.opcode, mask_scalar, packWord_and_fields]
  simp

end Sys2Proof.Laws
end

