-- ==== Sys2Proof/Laws/Table.lean ====
section
/-! SUPPORT. Pages, mappings, the page table and translation (R9, R22 to R25, R55 to R57): one lemma for what each
shared operation does. -/

namespace Sys2Proof.Machine

variable {p : Params} {pt : List Slot} {m : Mapping}

/-! ## Pages (R9) -/

theorem page_eq (p : Params) (a : Nat) : page p a = a / 2 ^ p.pageBits := Nat.shiftRight_eq_div_pow _ _

theorem pagebase_eq (p : Params) (i : Nat) : pagebase p i = i * 2 ^ p.pageBits := Nat.shiftLeft_eq _ _

theorem page_mono {a b : Nat} (h : a ≤ b) : page p a ≤ page p b := by
  simp only [page_eq]; exact Nat.div_le_div_right h

/-- An address lies in its page (R21). -/
theorem pagebase_page_le (p : Params) (a : Nat) : pagebase p (page p a) ≤ a := by
  rw [page_eq, pagebase_eq]; exact Nat.div_mul_le_self _ _

theorem lt_pagebase_page_succ (p : Params) (a : Nat) : a < pagebase p (page p a + 1) := by
  rw [page_eq, pagebase_eq, Nat.mul_comm]; exact Nat.lt_mul_div_succ _ (Nat.two_pow_pos _)

theorem pagebase_mono {i j : Nat} (h : i ≤ j) : pagebase p i ≤ pagebase p j := by
  simp only [pagebase_eq]; exact Nat.mul_le_mul_right _ h

theorem page_le_iff {a i : Nat} : page p a ≤ i ↔ a < pagebase p (i + 1) := by
  rw [page_eq, pagebase_eq, ← Nat.lt_succ_iff, Nat.div_lt_iff_lt_mul (Nat.two_pow_pos _)]

theorem le_page_iff {a i : Nat} : i ≤ page p a ↔ pagebase p i ≤ a := by
  rw [page_eq, pagebase_eq, Nat.le_div_iff_mul_le (Nat.two_pow_pos _)]

theorem top_eq (h : p.Legal) : p.top = p.npages * 2 ^ p.pageBits := by
  rw [Params.top, Params.npages, ← Nat.pow_add]; congr 1; have := h.page_le; omega

/-- A bus address has a slot (R21). -/
theorem page_lt_npages (h : p.Legal) {a : Nat} (ha : a < p.top) : page p a < p.npages := by
  rw [page_eq, Nat.div_lt_iff_lt_mul (Nat.two_pow_pos _), ← top_eq h]; exact ha

/-! ## Slots and entries (R22, R23) -/

/-- The identity that an entry holds, as a number of DevIdWidth bits (R22). -/
@[simp] theorem devOf_toNat (p : Params) (dev : DevId) : (devOf p dev).toNat = dev.toNat % 2 ^ p.devIdWidth := by
  have h := Nat.mod_le dev.toNat (2 ^ p.devIdWidth)
  have := dev.isLt
  simp only [devOf, BitVec.toNat_ofNat]
  exact Nat.mod_eq_of_lt (by omega)

/-- With DevIdWidth 16 an entry holds the request's identity itself (R8, R80). -/
theorem devOf_eq_self {dev : DevId} (h : 16 ≤ p.devIdWidth) : devOf p dev = dev := by
  refine BitVec.eq_of_toNat_eq ?_
  rw [devOf_toNat, Nat.mod_eq_of_lt]
  exact lt_of_lt_of_le dev.isLt (Nat.pow_le_pow_right (by omega) h)

/-- Every entry of a table whose identities fit has one of DevIdWidth bits (R22). -/
theorem devsFit_iff : devsFit p pt = true ↔ ∀ e, some e ∈ pt → e.dev.toNat < 2 ^ p.devIdWidth := by
  simp only [devsFit, List.all_eq_true]
  constructor
  · intro h e he; simpa using h _ he
  · intro h slot hs
    cases slot with
    | none => rfl
    | some e => simpa using h e hs

@[simp] theorem entry_dev (p : Params) (m : Mapping) (i : Nat) : (m.entry p i).dev = m.dev := rfl
@[simp] theorem entry_base (p : Params) (m : Mapping) (i : Nat) : (m.entry p i).base = m.base := rfl
@[simp] theorem entry_len (p : Params) (m : Mapping) (i : Nat) : (m.entry p i).len = m.len := rfl
@[simp] theorem entry_stop (p : Params) (m : Mapping) (i : Nat) : (m.entry p i).stop = m.stop := rfl

@[simp] theorem entry_mapping (p : Params) (e : Entry) (i : Nat) : (e.mapping p i).entry p i = e := by
  cases e; simp [Entry.mapping, Mapping.entry]

@[simp] theorem mapping_entry (p : Params) (m : Mapping) (i : Nat) : (m.entry p i).mapping p i = m := by
  cases m; simp [Entry.mapping, Mapping.entry]

theorem slotAt_eq_some {i : Nat} {e : Entry} : slotAt pt i = some e ↔ pt[i]? = some (some e) := by
  unfold slotAt
  cases h : pt[i]? <;> simp

theorem lt_length_of_slotAt {i : Nat} {e : Entry} (h : slotAt pt i = some e) : i < pt.length := by
  rw [slotAt_eq_some] at h
  exact (List.getElem?_eq_some_iff.1 h).1

@[simp] theorem slotAt_replicate (n i : Nat) : slotAt (List.replicate n none) i = none := by
  simp only [slotAt, List.getElem?_replicate]; split <;> rfl

/-- Every pass over a span is over the slots from its first to its last (R113, R114). -/
theorem mem_span {first last i : Nat} : i ∈ List.range' first (last + 1 - first) ↔ first ≤ i ∧ i ≤ last := by
  rw [List.mem_range'_1]; omega

/-- Pass 1 (R113). -/
theorem spanFree_iff : spanFree p m pt = true ↔
    ∀ i, m.first p ≤ i → i ≤ m.last p → slotAt pt i = none := by
  simp only [spanFree, List.all_eq_true, mem_span, Option.isNone_iff_eq_none]
  exact ⟨fun h i h1 h2 => h i ⟨h1, h2⟩, fun h i hi => h i hi.1 hi.2⟩

/-- Pass 2 keeps the number of slots (R21). -/
@[simp] theorem length_commit (p : Params) (m : Mapping) (pt : List Slot) : (commit p m pt).length = pt.length := by
  simp [commit]

/-- Pass 2 (R114): the slots of the span hold the entries of the mapping, and every other slot what it held. -/
theorem slotAt_commit {i : Nat} (hi : i < pt.length) : slotAt (commit p m pt) i =
    if m.first p ≤ i ∧ i ≤ m.last p then some (m.entry p i) else slotAt pt i := by
  simp only [slotAt, commit, List.getElem?_mapIdx, List.getElem?_eq_getElem hi, Option.map_some, Option.getD_some]

theorem slotAt_commit_ge {i : Nat} (hi : pt.length ≤ i) : slotAt (commit p m pt) i = none := by
  simp [slotAt, commit, List.getElem?_eq_none hi]

/-! ## Mappings of a table (R24, R25) -/

theorem fits_iff : m.fits p = true ↔
    1 ≤ m.len.toNat ∧ m.stop ≤ p.top ∧ m.ptr.toNat + m.len.toNat ≤ p.storeSize := by
  simp [Mapping.fits, and_assoc]

theorem inSpan_iff {i : Nat} : m.inSpan p i = true ↔ m.first p ≤ i ∧ i ≤ m.last p := by
  simp [Mapping.inSpan]

theorem covers_iff {a : Nat} : m.covers a = true ↔ m.base.toNat ≤ a ∧ a < m.stop := by
  simp [Mapping.covers]

theorem mapped_iff : m.mapped p pt = true ↔
    m.fits p = true ∧ ∀ i, m.first p ≤ i → i ≤ m.last p → slotAt pt i = some (m.entry p i) := by
  simp only [Mapping.mapped, Bool.and_eq_true, List.all_eq_true, mem_span, decide_eq_true_eq]
  exact and_congr_right fun _ => ⟨fun h i h1 h2 => h i ⟨h1, h2⟩, fun h i hi => h i hi.1 hi.2⟩

/-- The occupancy invariant, as a proposition (R21, R24). -/
theorem tableOk_iff : tableOk p pt = true ↔ pt.length = p.npages ∧
    ∀ i e, slotAt pt i = some e → (e.mapping p i).mapped p pt = true ∧ (e.mapping p i).inSpan p i = true := by
  simp only [tableOk, Bool.and_eq_true, List.all_eq_true, decide_eq_true_eq, List.mem_range]
  refine and_congr_right fun _ => ⟨fun h i e he => ?_, fun h i _ => ?_⟩
  · have := h i (lt_length_of_slotAt he)
    rw [he] at this
    simpa using this
  · cases he : slotAt pt i with
    | none => rfl
    | some e => simpa using h i e he

/-- The table of a constructed machine (R36). -/
theorem tableOk_construct (p : Params) : tableOk p (State.construct p).pt = true := by
  rw [tableOk_iff]
  refine ⟨by simp, fun i e h => ?_⟩
  simp at h

/-- An address in the extent of a registration has its page in the span (R24, R112). -/
theorem inSpan_page {a : Nat} (h : m.covers a = true) : m.inSpan p (page p a) = true := by
  rw [covers_iff] at h
  rw [inSpan_iff]
  exact ⟨page_mono h.1, page_mono (by omega)⟩

/-- How far a slot of the span is into the buffer (R23): less than the length. -/
theorem slotOffset_lt {i : Nat} (hf : m.fits p = true) (h : m.inSpan p i = true) :
    slotOffset p m.base.toNat i < m.len.toNat := by
  rw [fits_iff] at hf
  rw [inSpan_iff] at h
  have h2 := le_page_iff.1 h.2
  have hs : m.stop = m.base.toNat + m.len.toNat := rfl
  unfold slotOffset
  omega

/-- The store address in a slot of the span, as a natural (R23). -/
theorem entry_ptr_toNat {i : Nat} (hp : p.Legal) (hf : m.fits p = true) (h : m.inSpan p i = true) :
    (m.entry p i).ptr.toNat = m.ptr.toNat + slotOffset p m.base.toNat i := by
  have h1 := slotOffset_lt hf h
  rw [fits_iff] at hf
  have h2 := hp.store_le
  simp only [Mapping.entry, BitVec.toNat_add, BitVec.toNat_ofNat]
  omega

/-! ## Translation (R55 to R57) -/

/-- `xlate` finds the store byte of an address in the extent of a mapping: `M.ptr + (a − M.base)` (R56). -/
theorem xlate_of_mapped {a : Nat} (hp : p.Legal) (hm : m.mapped p pt = true) (h : m.covers a = true) :
    xlate p pt a = .hit (m.entry p (page p a)) (m.ptr.toNat + (a - m.base.toNat)) := by
  have hsp := inSpan_page (p := p) h
  rw [mapped_iff] at hm
  have hslot := hm.2 _ (inSpan_iff.1 hsp).1 (inSpan_iff.1 hsp).2
  have hptr := entry_ptr_toNat hp hm.1 hsp
  rw [covers_iff] at h
  have hb := pagebase_page_le p a
  simp only [xlate, hslot, entry_base, entry_stop, if_neg (Nat.not_lt.2 h.1), if_neg (Nat.not_le.2 h.2), hptr, slotOffset]
  congr 1
  omega

/-- A `HIT` goes through a mapping of the table (R57). -/
theorem mapped_of_hit {a sa : Nat} {e : Entry} (ht : tableOk p pt = true) (h : xlate p pt a = .hit e sa) :
    ∃ m : Mapping, m.mapped p pt = true ∧ m.covers a = true ∧ e = m.entry p (page p a) := by
  unfold xlate at h
  split at h
  · cases h
  · rename_i e' he
    split at h
    · cases h
    · split at h
      · cases h
      · cases h
        have := (tableOk_iff.1 ht).2 _ _ he
        refine ⟨e.mapping p (page p a), this.1, ?_, by simp⟩
        rw [covers_iff]
        exact ⟨Nat.not_lt.1 ‹_›, Nat.not_le.1 ‹_›⟩

/-- What a `HIT` says, in any table (R55). -/
theorem hit_bounds {a sa : Nat} {e : Entry} (h : xlate p pt a = .hit e sa) : e.base.toNat ≤ a ∧ a < e.stop := by
  unfold xlate at h
  split at h
  · cases h
  · split at h
    · cases h
    · split at h
      · cases h
      · cases h; exact ⟨Nat.not_lt.1 ‹_›, Nat.not_le.1 ‹_›⟩

theorem storeAddr_isSome_iff {c : Xlate} : c.storeAddr.isSome = true ↔ ∃ e sa, c = .hit e sa := by
  cases c <;> simp [Xlate.storeAddr]

/-- The address that a fault reports is a bus address (R34, R137). -/
theorem faultAddr_lt_top {a : Nat} (ha : a < p.top) : (xlate p pt a).faultAddr a < p.top := by
  unfold xlate
  split
  · exact ha
  · split
    · exact ha
    · split
      · simp only [Xlate.faultAddr]; omega
      · simp only [Xlate.faultAddr]; exact ha

end Sys2Proof.Machine
end

