-- ==== Sys2Proof/Laws/Transfer.lean ====
section
/-! SUPPORT. What each phase of the transfer engine can do, what no phase changes, and what the port lets through
(R135, R137, R200, R206). -/

namespace Sys2Proof.Machine

variable {s t : State} {x : Xfer}

/-! ## The port -/

/-- A request is served only in `IDLE` (R206). -/
theorem whenIdle_eq_next {o : Host.Outcome State Fault Refusal} (h : whenIdle s o = .next t) :
    s.fsm = .idle ∧ o = .next t := by
  unfold whenIdle at h
  split at h
  · exact ⟨(isIdle_iff _).1 ‹_›, h⟩
  · cases h

theorem whenIdle_idle {o : Host.Outcome State Fault Refusal} (h : s.fsm = .idle) : whenIdle s o = o := by
  simp [whenIdle, h]

/-- A request with an address is served only in `IDLE` and below TOP (R50, R206). -/
theorem acceptAt_eq_next {a : Field} {o : Host.Outcome State Fault Refusal} (h : acceptAt s a o = .next t) :
    s.fsm = .idle ∧ a.toNat < s.params.top ∧ o = .next t := by
  have h1 := whenIdle_eq_next h
  refine ⟨h1.1, ?_⟩
  have h2 := h1.2
  split at h2
  · rename_i hi; exact ⟨by simpa [Params.inSpace] using hi, h2⟩
  · cases h2

theorem acceptAt_ok {a : Field} {o : Host.Outcome State Fault Refusal} (h : s.fsm = .idle) (ha : a.toNat < s.params.top) :
    acceptAt s a o = o := by
  simp [acceptAt, whenIdle, h, Params.inSpace, ha]

/-! ## Taking an access fault (R193, R200) -/

/-- All that an access fault can do: one event, the transfer in `DONE`, and the notifier's end of the system where it
does that; nothing else (R200). -/
theorem raiseAccessFault_eq_next {a : Nat} (h : raiseAccessFault s x a = .next t) :
    t = { s with trace := s.trace ++ [⟨a, x.dir⟩], fsm := .done x, ended := t.ended } ∧
      (nextReaction s = .returns ∧ t.ended = s.ended ∨ nextReaction s = .endsSystem ∧ t.ended = true) := by
  unfold raiseAccessFault at h
  split at h
  · cases h; exact ⟨rfl, .inl ⟨‹_›, rfl⟩⟩
  · cases h; exact ⟨rfl, .inr ⟨‹_›, rfl⟩⟩
  · cases h

theorem raiseAccessFault_not_fault {a : Nat} {f : Fault} : raiseAccessFault s x a ≠ .fault f := by
  unfold raiseAccessFault
  split <;> simp

theorem raiseAccessFault_eq_refused {a : Nat} {r : Refusal} (h : raiseAccessFault s x a = .refused r) :
    r = .reentrantRequest ∧ nextReaction s = .issuesRequest := by
  unfold raiseAccessFault at h
  split at h
  · cases h
  · cases h
  · cases h; exact ⟨rfl, ‹_›⟩

/-! ## The phases (R135) -/

/-- All that a `LOOKUP` can go on to (R135). -/
theorem lookupStep_eq_next (h : lookupStep s x = .next t) :
    (x.rem = 0 ∧ t = { s with fsm := .done x }) ∨
    (∃ e sa, x.rem ≠ 0 ∧ x.cur < s.params.top ∧ xlate s.params s.pt x.cur = .hit e sa ∧
      t = { s with fsm := .copy x (chunkLen e x) sa }) ∨
    (x.rem ≠ 0 ∧ x.cur < s.params.top ∧ (xlate s.params s.pt x.cur).storeAddr = none ∧
      raiseAccessFault s x ((xlate s.params s.pt x.cur).faultAddr x.cur) = .next t) := by
  unfold lookupStep at h
  split at h
  · cases h; exact .inl ⟨‹_›, rfl⟩
  · split at h
    · cases h
    · rename_i h1 h2
      split at h
      · rename_i e sa hx; cases h; exact .inr (.inl ⟨e, sa, h1, Nat.not_le.1 h2, hx, rfl⟩)
      · rename_i hx
        refine .inr (.inr ⟨h1, Nat.not_le.1 h2, ?_, h⟩)
        cases hc : xlate s.params s.pt x.cur with
        | hit e sa => exact absurd hc (hx e sa)
        | _ => rfl

/-- All that a `COPY` can go on to (R134). -/
theorem copyStep_eq_next {c a : Nat} (h : copyStep s x c a = .next t) :
    a + c ≤ s.params.storeSize ∧
    ((x.dir = .read ∧ t = { s with
        fsm := .lookup { x.advance c with moved := x.moved ++ Memory.readBytes s.params.store0 s.store a c } }) ∨
     (x.dir = .write ∧ t = { s with
        store := Memory.writeBytes s.params.store0 s.store a ((x.data.drop x.done).take c)
        fsm := .lookup (x.advance c) })) := by
  unfold copyStep at h
  split at h
  · cases h
  · refine ⟨Nat.not_lt.1 ‹_›, ?_⟩
    split at h
    · cases h; exact .inl ⟨‹_›, rfl⟩
    · cases h; exact .inr ⟨‹_›, rfl⟩

/-- What `DONE` changes: the phase, the responses and the count of draws (R135, R201). -/
theorem doneStep_eq (s : State) (x : Xfer) : doneStep s x =
    { s with fsm := .idle, responses := (doneStep s x).responses, drawCount := (doneStep s x).drawCount } := by
  unfold doneStep
  split
  · rfl
  · cases x.want <;> rfl

@[simp] theorem doneStep_params (s : State) (x : Xfer) : (doneStep s x).params = s.params := by rw [doneStep_eq]
@[simp] theorem doneStep_pt (s : State) (x : Xfer) : (doneStep s x).pt = s.pt := by rw [doneStep_eq]
@[simp] theorem doneStep_store (s : State) (x : Xfer) : (doneStep s x).store = s.store := by rw [doneStep_eq]
@[simp] theorem doneStep_fsm (s : State) (x : Xfer) : (doneStep s x).fsm = .idle := by rw [doneStep_eq]
@[simp] theorem doneStep_trace (s : State) (x : Xfer) : (doneStep s x).trace = s.trace := by rw [doneStep_eq]
@[simp] theorem doneStep_refused (s : State) (x : Xfer) : (doneStep s x).refused = s.refused := by rw [doneStep_eq]
@[simp] theorem doneStep_input (s : State) (x : Xfer) : (doneStep s x).input = s.input := by rw [doneStep_eq]
@[simp] theorem doneStep_ended (s : State) (x : Xfer) : (doneStep s x).ended = s.ended := by rw [doneStep_eq]

/-- What no phase changes: the parameters, the page table ("A transfer never writes `PT`", R144), the mark and the
arrivals. -/
structure SamePlace (s t : State) : Prop where
  params : t.params = s.params
  pt : t.pt = s.pt
  refused : t.refused = s.refused
  input : t.input = s.input

theorem SamePlace.refl (s : State) : SamePlace s s := ⟨rfl, rfl, rfl, rfl⟩

theorem SamePlace.trans {u : State} (h : SamePlace s t) (h' : SamePlace t u) : SamePlace s u :=
  ⟨h'.params.trans h.params, h'.pt.trans h.pt, h'.refused.trans h.refused, h'.input.trans h.input⟩

theorem fsmStep_samePlace (h : fsmStep s = .next t) : SamePlace s t := by
  unfold fsmStep at h
  split at h
  · cases h
  · rcases lookupStep_eq_next h with ⟨_, rfl⟩ | ⟨_, _, _, _, _, rfl⟩ | ⟨_, _, _, hr⟩
    · exact ⟨rfl, rfl, rfl, rfl⟩
    · exact ⟨rfl, rfl, rfl, rfl⟩
    · rw [(raiseAccessFault_eq_next hr).1]; exact ⟨rfl, rfl, rfl, rfl⟩
  · rcases (copyStep_eq_next h).2 with ⟨_, rfl⟩ | ⟨_, rfl⟩ <;> exact ⟨rfl, rfl, rfl, rfl⟩
  · cases h; exact ⟨by simp, by simp, by simp, by simp⟩

/-! ## Whole transfers -/

@[simp] theorem runFsm_idle {n : Nat} (h : s.fsm = .idle) : runFsm n s = .next s := by
  cases n <;> simp [runFsm, h]

/-- One phase of a transfer in progress. -/
theorem runFsm_succ {n : Nat} (h : s.fsm ≠ .idle) : runFsm (n + 1) s =
    match fsmStep s with
    | .next u => runFsm n u
    | .fault f => .fault f
    | .refused r => .refused r := by
  have hi : s.fsm.isIdle = false := by
    cases hb : s.fsm.isIdle
    · rfl
    · exact absurd ((isIdle_iff _).1 hb) h
  exact if_neg (by simp [hi])

/-- A transfer that answers a next state is a chain of phases: a relation that every phase keeps holds from its start to
its end. -/
theorem runFsm_induct {n : Nat} {R : State → State → Prop} (hrefl : ∀ u, R u u)
    (htrans : ∀ u v w, R u v → R v w → R u w) (hstep : ∀ u v, fsmStep u = .next v → R u v)
    (h : runFsm n s = .next t) : R s t ∧ t.fsm = .idle := by
  induction n generalizing s with
  | zero =>
    simp only [runFsm] at h
    split at h
    · cases h; exact ⟨hrefl _, (isIdle_iff _).1 ‹_›⟩
    · cases h
  | succ n ih =>
    by_cases hi : s.fsm = .idle
    · rw [runFsm_idle hi] at h; cases h; exact ⟨hrefl _, hi⟩
    · rw [runFsm_succ hi] at h
      split at h
      · rename_i u hu; have := ih h; exact ⟨htrans _ _ _ (hstep _ _ hu) this.1, this.2⟩
      · cases h
      · cases h

/-- A transfer leaves the parameters, the page table, the mark and the arrivals alone, and ends in `IDLE` (R144, R201). -/
theorem transfer_samePlace {dir : AccessKind} {start cnt : Nat} {data : List Byte} {want : Want}
    (h : transfer dir start cnt data want s = .next t) : SamePlace s t ∧ t.fsm = .idle := by
  have := runFsm_induct (R := SamePlace) SamePlace.refl (fun _ _ _ => SamePlace.trans) (fun _ _ => fsmStep_samePlace) h
  have h0 : SamePlace s (startTransfer s dir start cnt data want) := ⟨rfl, rfl, rfl, rfl⟩
  exact ⟨h0.trans this.1, this.2⟩

end Sys2Proof.Machine
end

