-- ==== Sys2Proof/Laws/Step.lean ====
section
/-! SUPPORT. What `MAP`, a device update and a step can do where they answer a next state (R113 to R115, R68, R243). -/

namespace Sys2Proof.Machine

variable {s t : State}

/-- All that a `MAP` can do: its slots and `OK`, or `ALREADY_MAPPED` alone (R115). -/
theorem execMap_eq_next {d : DevId} {a n q : Field} (h : execMap d a n q s = .next t) :
    s.fsm = .idle ∧ a.toNat < s.params.top ∧ n ≠ 0 ∧ a.toNat + n.toNat ≤ s.params.top ∧
      q.toNat + n.toNat ≤ s.params.storeSize ∧
      (spanFree s.params (mappingOf s.params d a n q) s.pt = true ∧
          t = { s with pt := commit s.params (mappingOf s.params d a n q) s.pt }.respond (.status .ok) ∨
        spanFree s.params (mappingOf s.params d a n q) s.pt = false ∧ t = s.respond (.status .alreadyMapped)) := by
  obtain ⟨h1, h2, h3⟩ := acceptAt_eq_next h
  split_ifs at h3 with c1 c2 c3 c4
  · cases h3; exact ⟨h1, h2, c1, by omega, by omega, .inl ⟨c4, rfl⟩⟩
  · cases h3; exact ⟨h1, h2, c1, by omega, by omega, .inr ⟨by simpa using c4, rfl⟩⟩

/-- All that a device update can do: the bytes it names (R33, R68). -/
theorem deviceUpdate_eq_next {sa : Nat} {bs : List Byte} (h : deviceUpdate sa bs s = .next t) :
    s.fsm = .idle ∧ sa + bs.length ≤ s.params.storeSize ∧
      t = { s with store := Memory.writeBytes s.params.store0 s.store sa bs } := by
  obtain ⟨h1, h2⟩ := whenIdle_eq_next h
  split at h2
  · cases h2
  · cases h2; exact ⟨h1, by omega, rfl⟩

/-- All that a step can do: nothing, the next phase, a device update, or the decoded request (R66, R243). -/
theorem step_eq_next (h : step s = .next t) : s.refused = false ∧ s.ended = false ∧
    ((s.input = [] ∧ s.fsm = .idle ∧ t = s) ∨ (s.input = [] ∧ s.fsm ≠ .idle ∧ fsmStep s = .next t) ∨
      (∃ sa bs b rest, s.input = ⟨.update sa bs, b⟩ :: rest ∧
        deviceUpdate sa bs { s with input := rest } = .next t) ∨
      (∃ r b rest i, s.input = ⟨.request r, b⟩ :: rest ∧ decode s.params r = .ok i ∧
        exec i { s with input := rest } = .next t)) := by
  unfold step at h
  split at h
  · cases h
  rename_i hr
  split at h
  · cases h
  rename_i he
  refine ⟨by simpa using hr, by simpa using he, ?_⟩
  cases hin : s.input with
  | nil =>
    simp only [fetch, hin] at h
    cases hf : s.fsm <;> simp [hf] at h <;> simp_all
  | cons a rest =>
    obtain ⟨inp, ov⟩ := a
    cases inp with
    | update sa bs =>
      simp only [fetch, hin] at h
      cases hov : overlapsNext rest <;> simp [hov] at h
      exact .inr (.inr (.inl ⟨sa, bs, ov, rest, rfl, h⟩))
    | request r =>
      simp only [fetch, hin] at h
      cases hd : decode s.params r with
      | error e => simp [hd] at h
      | ok i =>
        cases hov : overlapsNext rest <;> simp [hd, hov] at h
        exact .inr (.inr (.inr ⟨r, ov, rest, i, rfl, hd, h⟩))

end Sys2Proof.Machine
end

