-- ==== Sys2Proof/Tests/Slice0.lean ====
section
/-! SUPPORT. The model's own tests: words and vectors written out from spec/30_encoding.md R92 and
spec/95_test_vectors.md, the checks of WellFormed, and for each statement with hypotheses a case that meets them. -/

namespace Sys2Proof.Tests
open Sys2Proof Sys2Proof.Machine

/-! ## Helpers -/

/-- The next state, where there is one. -/
def after : Host.Outcome State Fault Refusal → Option State
  | .next t => some t
  | .fault _ => none
  | .refused _ => none

/-- The refusal, where there is one. -/
def refusalIn : Host.Outcome State Fault Refusal → Option Refusal
  | .next _ => none
  | .fault _ => none
  | .refused r => some r

theorem next_of_after {o : Host.Outcome State Fault Refusal} (h : (after o).isSome = true) : ∃ t, o = .next t := by
  cases o with
  | next t => exact ⟨t, rfl⟩
  | fault f => cases h
  | refused r => cases h

theorem eq_next_of_after {o : Host.Outcome State Fault Refusal} (d : State) (h : (after o).isSome = true) :
    o = .next ((after o).getD d) := by
  cases o with
  | next t => rfl
  | fault f => cases h
  | refused r => cases h

theorem refused_of_refusalIn {o : Host.Outcome State Fault Refusal} {r : Refusal} (h : refusalIn o = some r) :
    o = .refused r := by
  cases o with
  | next t => cases h
  | fault f => cases h
  | refused r' => cases h; rfl

/-- A constructed machine after these registrations and with these store bytes. -/
def busOf (p : Params) (ms : List Mapping) (cells : Memory) : State :=
  { State.construct p with
    pt := ms.foldl (fun pt m => commit p m pt) (State.construct p).pt
    store := cells }

/-- The responses and the events of a request. -/
def answers (i : Instr) (s : State) : Option (List Response × List Event) :=
  (after (exec i s)).map fun t => (t.responses, t.trace)

/-- The store after a request. -/
def stores (i : Instr) (s : State) : Option Memory := (after (exec i s)).map State.store

/-! ## The machines of 95_test_vectors.md (`Store0` all zeros for the unknown bytes) -/

def params16 : Params := { Config.reference with store0 := ⟨[], 0⟩ }

/-- Setup R of section 4. -/
def setupR : State :=
  busOf params16
    [⟨1, 0x0400, 0x0300, 0x2000⟩, ⟨2, 0x0A00, 0x0400, 0x3000⟩, ⟨3, 0x1000, 0x0400, 0x4000⟩, ⟨4, 0x1500, 0x0010, 0x5000⟩,
      ⟨5, 0x2000, 0x0400, 0x6000⟩, ⟨6, 0xFC00, 0x0400, 0x7000⟩]
    [(0x2000, 0x10), (0x2001, 0x11), (0x2002, 0x12), (0x2003, 0x13), (0x22FE, 0x1E), (0x22FF, 0x1F), (0x73FF, 0x6F)]

/-- Setup S' of section 7. -/
def setupS : State :=
  busOf params16 [⟨1, 0x0000, 0x0800, 0x0000⟩]
    [(0, 0x11), (1, 0x22), (2, 0x33), (3, 0x44), (4, 0x55), (5, 0x66), (6, 0x77), (7, 0x88), (0x3FE, 0x91), (0x3FF, 0x92),
      (0x400, 0x93), (0x401, 0x94)]

/-! ## WellFormed: each check refuses an ill-formed term (R81, R82, R86) -/

theorem test_wf_address_top : (Instr.read 0x10000 1).wellFormed params16 = false ∧
    (Instr.map 1 0x10000 1 0).wellFormed params16 = false ∧ (Instr.read64 0x10000).wellFormed params16 = false ∧
    (Instr.write32 0x10000 0).wellFormed params16 = false ∧ (Instr.write 0x10000 []).wellFormed params16 = false := by decide

theorem test_wf_address_last : (Instr.read 0xFFFF 1).wellFormed params16 = true := by decide

theorem test_wf_count (d : List Byte) (h : d.length = 2 ^ 32) : (Instr.write 0 d).wellFormed params16 = false := by
  simp [Instr.wellFormed, h]

theorem test_wf_data_word : (Instr.write8 0 0x100).wellFormed params16 = false ∧
    (Instr.write16 0 0x10000).wellFormed params16 = false ∧ (Instr.write32 0 0x100000000).wellFormed params16 = false ∧
    (Instr.write64 0 0xFFFFFFFFFFFFFFFF).wellFormed params16 = true := by decide

/-! ## Decoding: each request's word (R80, R84, R92, 95 sections 1, 2 and 7) -/

theorem test_decode_map : decodeTableWord 128 0x00000005_0000FFFF_00000001_00000010 = some (.map 5 0xFFFF 1 0x10) := by decide
theorem test_decode_read : decodeTableWord 128 0x10000000_00000010_00000004_00000000 = some (.read 0x10 4) := by decide
theorem test_decode_write : decode params16 ⟨0x20000000_000003FE_00000004_00000000, .bytes [0xDE, 0xAD, 0xBE, 0xEF]⟩ =
    .ok (.write 0x3FE [0xDE, 0xAD, 0xBE, 0xEF]) := by rfl
theorem test_decode_dump : decodeTableWord 128 0x30000000_00000000_00000000_00000000 = some .dump := by decide
theorem test_decode_read8 : decodeTableWord 128 0x40000000_00000003_00000000_00000000 = some (.read8 3) := by decide
theorem test_decode_read16 : decodeTableWord 128 0x50000000_00000001_00000000_00000000 = some (.read16 1) := by decide
theorem test_decode_read32 : decodeTableWord 128 0x60000000_000003FE_00000000_00000000 = some (.read32 0x3FE) := by decide
theorem test_decode_read64 : decodeTableWord 128 0x70000000_000007FC_00000000_00000000 = some (.read64 0x7FC) := by decide
theorem test_decode_write8 : decode params16 ⟨0x80000000_00000005_00000000_00000000, .word 0x77⟩ =
    .ok (.write8 5 0x77) := by rfl
theorem test_decode_write16 : decode params16 ⟨0x90000000_00000006_00000000_00000000, .word 0xBEEF⟩ =
    .ok (.write16 6 0xBEEF) := by rfl
theorem test_decode_write32 : decode params16 ⟨0xA0000000_00006000_00000000_00000000, .word 0xDEADBEEF⟩ =
    .ok (.write32 0x6000 0xDEADBEEF) := by rfl
theorem test_decode_write64 : decode params16 ⟨0xB0000000_000007FA_00000000_00000000, .word 0x0807060504030201⟩ =
    .ok (.write64 0x7FA 0x0807060504030201) := by rfl

/-- V2.4, V2.6, V2.7, V2.8, V2.10, V2.12, V2.13, V2.15. -/
theorem test_decoder_refuses :
    ([0xC0000000_00000000_00000000_00000000, 0xC0100000_00010000_00000000_00000000,
        0x00100000_00000000_00000001_00000000, 0x10000001_00000000_00000004_00000000,
        0x40000000_00000000_00000001_00000000, 0x30000000_00010000_00000000_00000000,
        0x10000000_00010000_00000001_00000000, 0x10000001_00010000_00000001_00000000].map fun q : ReqWord =>
      match decodeWord params16 q with | .error e => some e | .ok _ => none) =
    [some .reservedOpcode, some .reservedOpcode, some .reservedField, some .reservedField, some .reservedField,
      some .reservedField, some .addressRange, some .reservedField] := by decide

/-- V2.17, and R81: bits of the data word above the value. -/
theorem test_decode_write8_wide : decode params16 ⟨0x80000000_00000000_00000000_00000000, .word 0x100⟩ =
    .error .reservedField := by rfl

/-! ## MAP (95 section 3) -/

/-- R22: an entry holds DevIdWidth bits of the identity (log entry 6 for a width below 16). -/
theorem test_map_device_width :
    ([16, 4].map fun n => (after (exec (.map 0xABCD 0 1 0) (State.construct { params16 with devIdWidth := n }))).map
      fun t => (slotAt t.pt 0).map Entry.dev) = [some (some 0xABCD#16), some (some 0x000D#16)] := by decide

/-- V3.3: a span of three slots, each with its own buffer address. -/
theorem test_map_slots : (after (exec (.map 7 0x07FF 0x0402 0x8000) (State.construct params16))).map
      (fun t => ((List.range 5).map (slotAt t.pt), t.responses)) =
    some ([none, some ⟨7, 0x7FF, 0x402, 0x8000⟩, some ⟨7, 0x7FF, 0x402, 0x8001⟩, some ⟨7, 0x7FF, 0x402, 0x8401⟩, none],
      [.status .ok]) := by decide

/-- V3.5, V3.10, V3.8, V3.7: the preconditions in their order, and a mapping that ends at TOP. -/
theorem test_map_checks :
    [refusalIn (exec (.map 1 0x10 0 0) (State.construct params16)),
      refusalIn (exec (.map 1 0xF800 0x801 0xFFFF) (State.construct params16)),
      refusalIn (exec (.map 1 0 0x10 0xFFF8) (State.construct params16)),
      refusalIn (exec (.map 1 0xFC00 0x400 0) (State.construct params16))] =
    [some .mapZeroLength, some .mapBeyondTop, some .mapBufferRange, none] := by decide

/-- The slot images of section 3: slot 3 of setup R, and slot 63 of V3.13. -/
theorem test_slot_image : slotImage (slotAt setupR.pt 3) = 0xC80000000800000014000005 ∧
    slotImage (some ⟨9, 0, 0x10000, 0xFC00⟩) = 0x3F00000020000000000000013 := by decide

/-! ## Translation (95 section 4) -/

/-- V4.2, V4.4, V4.6, V4.7, V4.13, V4.17: the `HIT`s, and an unmapped address. -/
theorem test_xlate_store_address : ([0x06FF, 0x03FF, 0x0C00, 0x0DFF, 0x1500, 0xFFFF].map fun a =>
      (xlate params16 setupR.pt a).storeAddr) =
    [some 0x22FF, none, some 0x3200, some 0x33FF, some 0x5000, some 0x73FF] := by decide

/-- V4.3, V4.4, V4.5, V4.9, V4.12: the causes and the addresses that faults report. -/
theorem test_xlate_fault_address : ([0x0700, 0x03FF, 0x0800, 0x0FFF, 0x14FF].map fun a =>
      ((xlate params16 setupR.pt a).cause, (xlate params16 setupR.pt a).faultAddr a)) =
    [(some .beyondExtent, 0x700), (some .unmapped, 0x3FF), (some .belowBase, 0x800), (some .beyondExtent, 0xE00),
      (some .belowBase, 0x14FF)] := by decide

/-! ## READ and WRITE (95 sections 5 and 6) -/

/-- V5.5. -/
theorem test_read_partial : answers (.read 0x06FE 4) setupR =
    some ([.bytes [some 0x1E, some 0x1F, none, none]], [⟨0x700, .read⟩]) := by decide

/-- V5.6 (the address reported lies below the start), V5.13. -/
theorem test_read_past_extent : answers (.read 0x0780 1) setupR = some ([.bytes [none]], [⟨0x700, .read⟩]) ∧
    refusalIn (exec (.read 0xFFFF 2) setupR) = some .transferBeyondTop := by decide

/-- V6.6: no rollback. -/
theorem test_write_partial : stores (.write 0x13FE [0x81, 0x82, 0x83]) { setupR with store := [] } =
      some [(0x43FE, 0x81), (0x43FF, 0x82)] ∧
    answers (.write 0x13FE [0x81, 0x82, 0x83]) setupR = some ([.completion], [⟨0x1400, .write⟩]) := by decide

/-- V6.10: aliased bytes. -/
theorem test_write_alias : stores (.write 0x3FF [0x11, 0x22])
    (busOf params16 [⟨1, 0, 0x400, 0⟩, ⟨2, 0x400, 0x400, 0x3FF⟩] []) = some [(0x3FF, 0x22)] := by decide

/-! ## Scalars (95 section 7) -/

/-- V7.1. -/
theorem test_read8 : answers (.read8 3) setupS = some ([.value .w8 0x44#8], []) := by decide
/-- V7.2. -/
theorem test_read16 : answers (.read16 1) setupS = some ([.value .w16 0x3322#16], []) := by decide
/-- V7.6: the event of a partial read. -/
theorem test_read16_event : (after (exec (.read16 0x7FF) setupS)).map State.trace = some [⟨0x800, .read⟩] := by decide
/-- V7.3. -/
theorem test_read32 : answers (.read32 0x3FE) setupS = some ([.value .w32 0x94939291#32], []) := by decide
/-- V7.4. -/
theorem test_read64 : answers (.read64 0) setupS = some ([.value .w64 0x8877665544332211#64], []) := by decide
/-- V7.12, and the refusal of a term whose address is TOP. -/
theorem test_write8 : refusalIn (exec (.write8 0 0x100) setupS) = some .reservedField ∧
    refusalIn (exec (.write8 0x10000 0) setupS) = some .addressRange ∧
    stores (.write8 5 0x77) { setupS with store := [] } = some [(5, 0x77)] := by decide
/-- V7.8. -/
theorem test_write16 : stores (.write16 6 0xBEEF) { setupS with store := [] } = some [(6, 0xEF), (7, 0xBE)] := by decide
/-- V7.10. -/
theorem test_write32 : stores (.write32 0x7FD 0xCAFEF00D) { setupS with store := [] } =
      some [(0x7FD, 0x0D), (0x7FE, 0xF0), (0x7FF, 0xFE)] ∧
    answers (.write32 0x7FD 0xCAFEF00D) setupS = some ([.completion], [⟨0x800, .write⟩]) := by decide
/-- V7.9. -/
theorem test_write64 : stores (.write64 0x7FA 0x0807060504030201) { setupS with store := [] } =
    some [(0x7FA, 1), (0x7FB, 2), (0x7FC, 3), (0x7FD, 4), (0x7FE, 5), (0x7FF, 6)] := by decide

/-! ## DUMP (95 section 8) -/

/-- V8.2. -/
theorem test_dump : answers .dump setupR = some ([.records [⟨0x400, 0x300⟩, ⟨0xA00, 0x400⟩, ⟨0xA00, 0x400⟩,
    ⟨0x1000, 0x400⟩, ⟨0x1500, 0x10⟩, ⟨0x2000, 0x400⟩, ⟨0xFC00, 0x400⟩]], []) := by decide

/-- V8.3: a record as a word of 96 bits. -/
theorem test_dump_word : (DumpRecord.mk 0x300 0x600).code = 0x00000000_00000600_00000300#96 := by decide

/-! ## The assembler (R90, R91) -/

theorem test_assemble_write :
    assemble [] "WRITE   0x0100, [0x4E, 69, 0x53, 0x1a] ; header" = some (.write 0x100 [0x4E, 0x45, 0x53, 0x1A]) := by decide
theorem test_assemble_devmap :
    assemble [⟨1, 0, 0x800⟩, ⟨2, 0x1000, 0x400⟩] "DEVMAP 2, 0x8000" = some (.map 2 0x8000 0x400 0x1000) := by decide
/-- Log entry 32: of two devices with one identity, the first listed. -/
theorem test_assemble_devmap_first :
    assemble [⟨2, 0, 0x800⟩, ⟨2, 0x1000, 0x400⟩] "DEVMAP 2, 0x8000" = some (.map 2 0x8000 0x800 0) := by decide
/-- An unknown mnemonic; and a comma after the last operand (log entry 24). -/
theorem test_assemble_refuses : assemble [] "UNMAP 1" = none ∧ assemble [] "READ8 3," = none ∧
    assemble [] "WRITE 3, [1,]" = none ∧ assemble [] "READ8 3" = some (.read8 3) := by decide

/-! ## A small machine for the witnesses: 32 bus addresses, 8 pages of 4 bytes, 16 store bytes -/

/-- The parameters of the small machine, with a notifier. -/
def params5 (l : List Reaction) : Params := ⟨5, 2, 16, 16, .little, ⟨[], 0⟩, l⟩

/-- Pages 1 to 3 (addresses 6 to 15; 4 and 5 below the base), with the store bytes 1 to 10. -/
def mapA : Mapping := ⟨1, 6, 10, 1⟩
/-- Page 4 (addresses 16 and 17; 18 and 19 past the extent), with store bytes that `mapA` has too. -/
def mapB : Mapping := ⟨2, 16, 2, 3⟩
/-- Page 7, the last (addresses 28 to 31). -/
def mapC : Mapping := ⟨3, 28, 4, 12⟩

/-- The small machine. Pages 0, 5 and 6 are empty. -/
def bus5 (l : List Reaction) : State := busOf (params5 l) [mapA, mapB, mapC] [(1, 0x4E), (2, 0x45), (3, 0x53), (15, 0x1A)]

theorem legal5 (l : List Reaction) : (params5 l).Legal :=
  ⟨by simp [params5], by simp [params5], by simp [params5], by simp [params5], by simp [params5]⟩

theorem inv5 (l : List Reaction) (h : l = [] ∨ l = [.issuesRequest] ∨ l = [.endsSystem]) : (bus5 l).Inv := by
  refine ⟨legal5 l, ?_, ?_, ?_, rfl, by simp [bus5, busOf]⟩
  · rcases h with rfl | rfl | rfl <;> decide
  · rcases h with rfl | rfl | rfl <;> decide
  · rcases h with rfl | rfl | rfl <;> decide

theorem legal16 : params16.Legal := ⟨by decide, by decide, by decide, by decide, by decide⟩

/-! ## Witnesses: decoding and the port -/

/-- For `DecodeEncodeRoundTrip`. -/
theorem witness_wellFormed : ([.map 0xFFFF 31 0xFFFFFFFF 0xFFFFFFFF, .read 31 0xFFFFFFFF, .write 31 [0xFF], .write 0 [], .dump,
    .read8 31, .read16 31, .read32 31, .read64 31, .write8 31 0xFF, .write16 31 0xFFFF, .write32 31 0xFFFFFFFF,
    .write64 31 0xFFFFFFFFFFFFFFFF].all fun i : Instr => i.wellFormed (params5 [])) = true := by decide

/-- For `DecodedHasOneEncoding`, `ExactlyOneRowMatches`. -/
theorem witness_decodes : decode params16 ⟨0x10000000_0000FFFF_FFFFFFFF_00000000, .none⟩ = .ok (.read 0xFFFF 0xFFFFFFFF) ∧
    (0x10000000_0000FFFF_FFFFFFFF_00000000#128 &&& (Instr.read 0 0).mask) = (Instr.read 0 0).pattern := ⟨rfl, by decide⟩

/-- For `RowMatchDecides`. -/
theorem witness_rowMatch :
    (0xA0000000_0000FFFF_00000000_00000000#128 &&& (Instr.write32 0 0).mask) = (Instr.write32 0 0).pattern ∧
    (addrField 0xA0000000_0000FFFF_00000000_00000000#128).toNat < params16.top ∧
    takeData (.writeN .w32 0xFFFF) (.word 0xFFFFFFFF) = .ok (.write32 0xFFFF 0xFFFFFFFF) := ⟨by decide, by decide, rfl⟩

/-- One word for each clause of `DecoderChecksInOrder`, at the boundaries: opcode 0xC, the top bit of `rsv`, `dev`
and `ptr` in turn at opcode 0xB, `len` at opcode 3, the address TOP, and TOP − 1. For `DecoderChecksInOrder`. -/
theorem witness_decoderOrder :
    0xC ≤ (opField 0xC0000000_00000000_00000000_00000000#128).toNat ∧
    ((opField 0xB8000000_00000000_00000000_00000000#128).toNat < 0xC ∧ rsvField 0xB8000000_00000000_00000000_00000000#128 ≠ 0) ∧
    (rsvField 0x10008000_00000000_00000000_00000000#128 = 0 ∧ opField 0x10008000_00000000_00000000_00000000#128 ≠ 0 ∧
      devField 0x10008000_00000000_00000000_00000000#128 ≠ 0) ∧
    (devField 0xB0000000_00000000_00000000_00000001#128 = 0 ∧ ptrField 0xB0000000_00000000_00000000_00000001#128 ≠ 0) ∧
    (3 ≤ (opField 0x30000000_00000000_80000000_00000000#128).toNat ∧ lenField 0x30000000_00000000_80000000_00000000#128 ≠ 0) ∧
    (opField 0x30000000_00000001_00000000_00000000#128 = 3 ∧ lenField 0x30000000_00000001_00000000_00000000#128 = 0 ∧
      addrField 0x30000000_00000001_00000000_00000000#128 ≠ 0) ∧
    (opField 0x00000001_00010000_00000001_00000000#128 = 0 ∧
      params16.top ≤ (addrField 0x00000001_00010000_00000001_00000000#128).toNat) ∧
    (addrField 0x00000001_0000FFFF_00000001_00000000#128).toNat < params16.top := by decide

/-- The request `DUMP` as it arrives. -/
def dumpRequest : Arrival := ⟨.request ⟨0x30000000_00000000_00000000_00000000, .none⟩, false⟩

/-- For `StepRunsDecodedRequest`. -/
theorem witness_stepRuns : (bus5 []).refused = false ∧ (bus5 []).ended = false ∧
    overlapsNext [dumpRequest] = false ∧ decode (params5 []) ⟨0x30000000_00000000_00000000_00000000, .none⟩ = .ok .dump ∧
    decode (params5 []) ⟨0xC0000000_00000000_00000000_00000000, .none⟩ = .error .reservedOpcode ∧
    decode (params5 []) ⟨0x30000000_00000001_00000000_00000000, .none⟩ = .error .reservedField ∧
    decode (params5 []) ⟨0x10000000_00000020_00000001_00000000, .none⟩ = .error .addressRange ∧
    decode (params5 []) ⟨0x20000000_00000000_00000001_00000000, .bytes []⟩ = .error .dataOperand :=
  ⟨rfl, rfl, rfl, rfl, rfl, rfl, rfl, rfl⟩

/-- Log entry 29: a device update that another one overlaps. -/
theorem test_update_overlap :
    refusalIn (step { bus5 [] with input := [⟨.update 1 [1], false⟩, ⟨.update 2 [2], true⟩] }) =
      some .concurrentRequest := by decide

/-- For `ConcurrentRequestRefused`. -/
theorem witness_concurrent : (startTransfer (bus5 []) .read 6 1 [] .bytes).fsm ≠ .idle ∧
    overlapsNext [{ dumpRequest with overlaps := true }] = true ∧
    refusalIn (step { bus5 [] with input := [dumpRequest, { dumpRequest with overlaps := true }] }) =
      some .concurrentRequest := by decide

/-- For `RefusalLeavesNoSuccessor`. -/
theorem witness_refusal :
    step { bus5 [] with input := [⟨.request ⟨0xC0000000_00000000_00000000_00000000, .none⟩, false⟩] } =
      .refused .reservedOpcode := refused_of_refusalIn (by decide)

/-- An update of the last store byte. For `DeviceUpdateChangesItsBytes`. -/
theorem witness_update : ({ bus5 [] with input := [⟨.update 15 [0x77], false⟩] } : State).Inv ∧
    15 + [(0x77 : Byte)].length ≤ (params5 []).storeSize ∧
    (after (step { bus5 [] with input := [⟨.update 15 [0x77], false⟩] })).isSome = true :=
  ⟨⟨(inv5 [] (.inl rfl)).legal, (inv5 [] (.inl rfl)).table, (inv5 [] (.inl rfl)).devs, (inv5 [] (.inl rfl)).store, (inv5 [] (.inl rfl)).idle, (inv5 [] (.inl rfl)).trace⟩, by decide, by decide⟩

/-! ## Witnesses: MAP and the page table -/

/-- A free span that ends at TOP, with a buffer that ends at StoreSize. For `MapRegistersFreeSpan`. -/
theorem witness_mapFree : (State.construct (params5 [])).Inv ∧ (4 : Field) ≠ 0 ∧
    (28 : Field).toNat + (4 : Field).toNat ≤ (params5 []).top ∧ (12 : Field).toNat + (4 : Field).toNat ≤ (params5 []).storeSize ∧
    (∀ i, slotAt (State.construct (params5 [])).pt i = none) ∧
    answers (.map 1 28 4 12) (State.construct (params5 [])) = some ([.status .ok], []) :=
  ⟨⟨legal5 [], Machine.tableOk_construct _, by decide, rfl, rfl, by simp [State.construct]⟩, by decide, by decide, by decide,
    fun i => Machine.slotAt_replicate _ i, by decide⟩

/-- A conflict at the first slot of the span, and one at the last. For `MapConflictChangesNothing`. -/
theorem witness_mapConflict : (slotAt (bus5 []).pt (page (params5 []) 19)).isSome = true ∧
    answers (.map 9 19 5 0) (bus5 []) = some ([.status .alreadyMapped], []) ∧
    (slotAt (bus5 []).pt (page (params5 []) (24 + 5 - 1))).isSome = true ∧
    answers (.map 9 24 5 0) (bus5 []) = some ([.status .alreadyMapped], []) := by decide

/-- For `MapPreconditionsInOrder`. -/
theorem witness_mapChecks : (bus5 []).fsm = .idle ∧ (20 : Field).toNat < (params5 []).top ∧
    (params5 []).top < (20 : Field).toNat + (13 : Field).toNat ∧
    ((20 : Field).toNat + (12 : Field).toNat ≤ (params5 []).top ∧
      (params5 []).storeSize < (5 : Field).toNat + (12 : Field).toNat) := ⟨rfl, by decide, by decide, by decide⟩

/-- Two spans side by side, and two that share their one page. For `TwoMapsConflictByPage`. -/
theorem witness_twoMaps : (params5 []).top = 32 ∧
    page (params5 []) (0 + 4 - 1) < page (params5 []) 4 ∧
    (page (params5 []) 3 ≤ page (params5 []) (0 + 1 - 1) ∧ page (params5 []) 0 ≤ page (params5 []) (3 + 1 - 1)) := by decide

/-- The small machine after a `MAP`, with a `DUMP` to come. -/
def busMapped : State :=
  (after (exec (.map 5 20 4 0) { bus5 [] with input := [dumpRequest] })).getD (bus5 [])

/-- `MAP`, then a `DUMP`, then the same `MAP` can come again. For `MapRepeatedIsRejected`. -/
theorem witness_mapRepeated : exec (.map 5 20 4 0) { bus5 [] with input := [dumpRequest] } = .next busMapped ∧
    busMapped.responses = [.status .ok] ∧
    List.IsChain (fun v w => step v = .next w) (busMapped :: ([] ++ [(after (step busMapped)).getD (bus5 [])])) ∧
    ((after (step busMapped)).getD (bus5 [])).fsm = .idle :=
  ⟨eq_next_of_after _ (by decide), by decide,
    List.isChain_cons_cons.2 ⟨eq_next_of_after _ (by decide), List.isChain_singleton _⟩, by decide⟩

/-- A mapping at its first and its last slot, its first and its last address; the table is as `MAP` leaves it. For
`MappingsShareNoSlot`, `HitIsTheCoveringMapping`, `DumpRepeatsEachMapping`. -/
theorem witness_mapping : mapA.mapped (params5 []) (bus5 []).pt = true ∧ tableOk (params5 []) (bus5 []).pt = true ∧
    mapA.inSpan (params5 []) 1 = true ∧ mapA.inSpan (params5 []) 3 = true ∧ mapA.covers 6 = true ∧ mapA.covers 15 = true ∧
    storeAddrOf (params5 []) (bus5 []).pt 15 = 10 := by decide

/-- For `ChunkIsContiguous`. -/
theorem witness_chunk : xlate (params5 []) (bus5 []).pt 6 = .hit ⟨1, 6, 10, 1⟩ 1 ∧
    9 < chunkLen ⟨1, 6, 10, 1⟩ ⟨.read, 6, 20, 6, 0, 20, [], [], .bytes⟩ ∧
    mapA.mapped (params5 []) (bus5 []).pt = true ∧ mapA.covers (6 + 9) = true ∧
    xlate (params5 []) (bus5 []).pt (6 + 9) = .hit (mapA.entry (params5 []) 3) (1 + 9) := by decide

/-- For `FaultAfterProgressNamesFirstUnmoved`. -/
theorem witness_faultAfterProgress : allHits (params5 []) (bus5 []).pt 6 12 = true ∧
    faultsAt (params5 []) (bus5 []).pt (6 + 12) 18 = true := by decide

/-- For `SlotsAreWriteOnce`, `StepKeepsGoodStates`, `HistoryOnlyGrows`. -/
theorem witness_step : ({ bus5 [] with input := [dumpRequest] } : State).Inv ∧
    (after (step { bus5 [] with input := [dumpRequest] })).isSome = true ∧ (slotAt (bus5 []).pt 7).isSome = true ∧
    (after (step ((bus5 []).withFetchWord 128 0x00000005_00000014_00000004_00000000))).map (fun t => slotAt t.pt 5) =
      some (some ⟨5, 20, 4, 0⟩) :=
  ⟨⟨(inv5 [] (.inl rfl)).legal, (inv5 [] (.inl rfl)).table, (inv5 [] (.inl rfl)).devs, (inv5 [] (.inl rfl)).store, (inv5 [] (.inl rfl)).idle,
    (inv5 [] (.inl rfl)).trace⟩, by decide, by decide, by decide⟩

/-- For `TranslationClasses`: the slots of an unmapped page, and one entry at each edge of its extent. -/
theorem witness_translation : slotAt (bus5 []).pt (0 >>> 2) = none ∧ slotAt (bus5 []).pt (5 >>> 2) = some ⟨1, 6, 10, 1⟩ ∧
    5 < (6 : Field).toNat ∧ slotAt (bus5 []).pt (18 >>> 2) = some ⟨2, 16, 2, 3⟩ ∧ slotAt (bus5 []).pt (15 >>> 2) = some ⟨1, 6, 10, 7⟩ ∧
    xlate (params5 []) (bus5 []).pt 15 = .hit ⟨1, 6, 10, 7⟩ 10 := by decide

/-! ## Witnesses: the transfer engine -/

/-- For `EngineIsByteSerial`. -/
theorem witness_engine : (bus5 []).Inv ∧ 31 < (params5 []).top ∧ [(0x11 : Byte), 0x22].length = 2 := ⟨inv5 [] (.inl rfl), by decide, rfl⟩

/-- `LOOKUP` to `COPY`, and `COPY` to `LOOKUP`. For `CursorOnlyIncreases`. -/
theorem witness_cursor :
    (startTransfer (bus5 []) .read 6 3 [] .bytes).fsm.agrees = true ∧
    ((after (fsmStep (startTransfer (bus5 []) .read 6 3 [] .bytes))).map State.fsm) =
      some (.copy ⟨.read, 6, 3, 6, 0, 3, [], [], .bytes⟩ 3 1) ∧
    (Fsm.copy ⟨.read, 6, 3, 6, 0, 3, [], [], .bytes⟩ 3 1).agrees = true ∧
    (after (fsmStep { bus5 [] with fsm := .copy ⟨.read, 6, 3, 6, 0, 3, [], [], .bytes⟩ 3 1 })).isSome = true := by decide

/-- For `GoodStatesDoNotFault`. -/
theorem witness_ended : ({ bus5 [] with ended := true } : State).Inv ∧
    step { bus5 [] with ended := true } = .fault .systemEnded :=
  ⟨⟨(inv5 [] (.inl rfl)).legal, (inv5 [] (.inl rfl)).table, (inv5 [] (.inl rfl)).devs, (inv5 [] (.inl rfl)).store, (inv5 [] (.inl rfl)).idle, (inv5 [] (.inl rfl)).trace⟩, rfl⟩

/-- For `TransferBeyondTopRefused`. -/
theorem witness_beyondTop : (Instr.read 28 5).wellFormed (params5 []) = true ∧ isTransfer (.read 28 5) = true ∧
    (params5 []).top < (moveRange (.read 28 5)).1 + (moveRange (.read 28 5)).2 ∧
    allHits (params5 []) (bus5 []).pt 28 ((params5 []).top - 28) = true ∧
    (params5 []).top < (moveRange (.write16 31 0)).1 + (moveRange (.write16 31 0)).2 := by decide

/-- One request for each clause of `OneEventPerFaultingTransfer`. For `OneEventPerFaultingTransfer`,
`FrameOfEveryRequest`, `DeviceIdentityIsNeverRead`. -/
theorem witness_oneEvent : (after (exec .dump (bus5 []))).isSome = true ∧ (after (exec (.read 6 12) (bus5 []))).isSome = true ∧
    allHits (params5 []) (bus5 []).pt 6 12 = true ∧ (after (exec (.write 6 [1, 2, 3, 4, 5, 6, 7, 8, 9, 10, 11, 12, 13]) (bus5 []))).isSome = true ∧
    allHits (params5 []) (bus5 []).pt 6 13 = false := by decide

/-- A fault at the first byte (below a base), and one at a later byte (past an extent). For `ReadStopsAtFault`,
`WriteStopsAtFault`. -/
theorem witness_faults : allHits (params5 []) (bus5 []).pt 4 0 = true ∧ faultsAt (params5 []) (bus5 []).pt (4 + 0) 4 = true ∧
    allHits (params5 []) (bus5 []).pt 17 1 = true ∧ faultsAt (params5 []) (bus5 []).pt (17 + 1) 18 = true ∧
    allHits (params5 []) (bus5 []).pt 19 0 = true ∧ faultsAt (params5 []) (bus5 []).pt (19 + 0) 18 = true ∧
    nextReaction (bus5 []) = .returns := by decide

/-- For `ReentrantRequestRefused`. -/
theorem witness_reentrant : (bus5 [.issuesRequest]).Inv ∧ (Instr.read 17 2).wellFormed (params5 [.issuesRequest]) = true ∧
    1 < (moveRange (.read 17 2)).2 ∧ allHits (params5 [.issuesRequest]) (bus5 [.issuesRequest]).pt 17 1 = true ∧
    faultsAt (params5 [.issuesRequest]) (bus5 [.issuesRequest]).pt 18 18 = true ∧
    nextReaction (bus5 [.issuesRequest]) = .issuesRequest := ⟨inv5 _ (.inr (.inl rfl)), by decide, by decide, by decide, by decide, by decide⟩

/-- For `NotifierEndsTheSystem`. -/
theorem witness_ends : (bus5 [.endsSystem]).Inv ∧ (bus5 [.endsSystem]).refused = false ∧
    (Instr.write 17 [1, 2]).wellFormed (params5 [.endsSystem]) = true ∧ 1 < (moveRange (.write 17 [1, 2])).2 ∧
    allHits (params5 [.endsSystem]) (bus5 [.endsSystem]).pt 17 1 = true ∧
    faultsAt (params5 [.endsSystem]) (bus5 [.endsSystem]).pt 18 18 = true ∧
    nextReaction (bus5 [.endsSystem]) = .endsSystem ∧
    (stores (.write 17 [0x77, 2]) (bus5 [.endsSystem])) =
      some [(1, 0x4E), (2, 0x45), (3, 0x53), (4, 0x77), (15, 0x1A)] ∧
    (dataOf .little (.write16 17 0x0277)).take 1 = [0x77] := ⟨inv5 _ (.inr (.inr rfl)), rfl, by decide, by decide, by decide, by decide, by decide, by decide, by decide⟩

/-- For `NotifierNeverChangesTheBlock`. -/
theorem witness_notifier : ((after (exec (.read 17 2) (bus5 []))).map State.ended) = some false ∧
    ((after (exec (.read 17 2) ((bus5 []).withNotifier [.returns, .endsSystem]))).map State.ended) = some false := by decide

/-! ## Witnesses: READ, WRITE and the scalars -/

/-- Hits from the first byte of one mapping to the last of the next; the last bytes of the bus space; no bytes. For
`ReadAnswersMappedBytes`, `WriteStoresThroughMappings`. -/
theorem witness_hits : (bus5 []).Inv ∧ (bus5 []).ended = false ∧ 31 < (params5 []).top ∧
    allHits (params5 []) (bus5 []).pt 6 12 = true ∧ allHits (params5 []) (bus5 []).pt 28 4 = true ∧
    allHits (params5 []) (bus5 []).pt 0 0 = true := ⟨inv5 [] (.inl rfl), rfl, by decide, by decide, by decide, by decide⟩

/-- A destination that is as long as the response, and one that is longer. For `DestinationKeepsUnreadBytes`. -/
theorem witness_destination : [(1 : Byte), 2].length + 1 ≤ [(7 : Byte), 8, 9].length ∧
    [(1 : Byte), 2].length + 1 ≤ [(7 : Byte), 8, 9, 10].length ∧
    applyRead (readResponse [1, 2] 1) [7, 8, 9, 10] = [1, 2, 9, 10] := by decide

/-- For `WritesTouchOnlyTheirBytes`. -/
theorem witness_untouched : (after (exec (.write 6 [1, 2]) (bus5 []))).isSome = true ∧
    (∀ j, j < 2 → (xlate (params5 []) (bus5 []).pt (6 + j)).storeAddr ≠ some 3) ∧
    (after (exec (.read 6 2) (bus5 []))).isSome = true := by decide

/-- For `WriteThenReadRoundTrip`. -/
theorem witness_roundTrip : mapA.mapped (params5 []) (bus5 []).pt = true ∧ mapA.covers 15 = true ∧
    15 + [(0x11 : Byte)].length ≤ mapA.stop := by decide

/-- For `AdjacentMappingsConcatenate`. -/
theorem witness_adjacent : mapA.mapped (params5 []) (bus5 []).pt = true ∧ mapB.mapped (params5 []) (bus5 []).pt = true ∧
    mapB.base.toNat = mapA.stop ∧ (12 : Field).toNat = mapA.len.toNat + mapB.len.toNat := by decide

/-- For `ReadOnePastMapping`. -/
theorem witness_onePast : mapB.mapped (params5 []) (bus5 []).pt = true ∧ mapB.stop < (params5 []).top ∧
    (∀ m : Mapping, m.mapped (params5 []) (bus5 []).pt = true → m.covers mapB.stop = false) ∧
    (3 : Field).toNat = mapB.len.toNat + 1 := by
  refine ⟨by decide, by decide, fun m hm => ?_, by decide⟩
  by_contra h
  have := Machine.xlate_of_mapped (legal5 []) hm (by simpa using h)
  rw [show xlate (params5 []) (bus5 []).pt mapB.stop = .beyondExtent ⟨2, 16, 2, 3⟩ by decide] at this
  cases this

/-- A `WRITE` over both mappings: bus 8 and bus 16 are store byte 3, and 16 is the higher. For `HigherAliasWins`. -/
theorem witness_alias : (after (exec (.write 6 [1, 2, 3, 4, 5, 6, 7, 8, 9, 10, 11]) (bus5 []))).isSome = true ∧
    allHits (params5 []) (bus5 []).pt 6 11 = true ∧
    storeAddrOf (params5 []) (bus5 []).pt 8 = storeAddrOf (params5 []) (bus5 []).pt 16 := by decide

/-- For `ScalarReadAnswersLittleEndian`, `ScalarWriteStoresLittleEndian`, `ScalarRoundTrip`, `ByteReadSeesWordWrite`.
-/
theorem witness_scalar : (bus5 []).params.scalarOrder = .little ∧
    (∀ w : Width, w ∈ [Width.w8, .w16, .w32, .w64] → allHits (params5 []) (bus5 []).pt 8 w.bytes = true ∧
      noAliases (params5 []) (bus5 []).pt 8 w.bytes = true ∧ w.fits (BitVec.ofNat 64 (2 ^ w.bits - 1)) = true) ∧
    Width.w32.bytes = 4 := by decide

/-- A fault at byte 0 and at byte 1 of a scalar, and the first data word that is too wide. For
`ScalarReadDrawsUnmovedBytes`, `ScalarWriteKeepsLowBytes`, `ScalarWriteRefusesHighBits`. -/
theorem witness_scalarPartial : 0 < Width.w8.bytes ∧ 1 < Width.w16.bytes ∧ allHits (params5 []) (bus5 []).pt 17 1 = true ∧
    faultsAt (params5 []) (bus5 []).pt (17 + 1) 18 = true ∧ faultsAt (params5 []) (bus5 []).pt (0 + 0) 0 = true ∧
    2 ^ Width.w8.bits ≤ (0x100 : DataWord).toNat ∧ 2 ^ Width.w32.bits ≤ (0x100000000 : DataWord).toNat := by decide

/-- For `ScalarWriteRefusesHighBits`: its word passes the decoder's checks. -/
theorem witness_scalarHighBits :
    decodeWord (params5 []) 0x80000000_0000001F_00000000_00000000 = .ok (.writeN .w8 31) ∧
    decodeWord (params5 []) 0xA0000000_0000001F_00000000_00000000 = .ok (.writeN .w32 31) := ⟨rfl, rfl⟩

/-- For `CountZeroMovesNothing`. -/
theorem witness_countZero : (bus5 []).fsm = .idle ∧ (0 : Field).toNat < (params5 []).top ∧ (31 : Field).toNat < (params5 []).top :=
  ⟨rfl, by decide, by decide⟩

/-! ## Witnesses: DUMP, construction, the assembler -/

/-- For `DumpListsOccupiedSlots`, `DumpRepeatsEachMapping`. -/
theorem witness_dump : (bus5 []).fsm = .idle ∧ (bus5 []).pt.length = (params5 []).npages ∧
    dumpRecords (bus5 []).pt = [⟨6, 10⟩, ⟨6, 10⟩, ⟨6, 10⟩, ⟨16, 2⟩, ⟨28, 4⟩] := by decide

/-- For `FreshMachineFaultsAtStart`. -/
theorem witness_fresh : isTransfer (.write64 31 0) = true ∧ (Instr.write64 31 0).wellFormed (params5 []) = true ∧
    1 ≤ (moveRange (.write64 31 0)).2 ∧ (Instr.read 0 1).wellFormed (params5 []) = true ∧
    nextReaction (State.construct (params5 [])) = .returns := by decide

/-- For `AssemblerRefusesUnknownMnemonic`, `DevmapExpandsToMap`. -/
theorem witness_assembler : "UNMAP".toList ∉ ["MAP", "READ", "WRITE", "DUMP", "READ8", "READ16", "READ32", "READ64", "WRITE8",
      "WRITE16", "WRITE32", "WRITE64", "DEVMAP"].map String.toList ∧
    numberIn 16 "0xFFFF".toList = some 0xFFFF#16 ∧ numberIn 32 "4294967295".toList = some 0xFFFFFFFF#32 ∧
    [(⟨0xFFFF, 0, 0x800⟩ : Device)].find? (fun u => u.dev == 0xFFFF#16) = some ⟨0xFFFF, 0, 0x800⟩ := by decide

end Sys2Proof.Tests
end

section
/-! SUPPORT. The statements about the state of the block: its page table (R25, R26), the bits of a slot (R27), and the
state after construction (R36). -/

namespace Sys2Proof.Machine

section
variable {p : Params} {pt : List Slot} {m m' : Mapping} {i : Nat}

/-! ## The mappings of one table (R23, R25) -/

theorem slotAt_of_mapped (hm : m.mapped p pt = true) (hi : m.inSpan p i = true) :
    slotAt pt i = some (m.entry p i) := by
  obtain ⟨hfirst, hlast⟩ := inSpan_iff.1 hi
  exact (mapped_iff.1 hm).2 i hfirst hlast

/-- The entry in a slot tells its registration: `Entry.mapping` reads it back (R23). -/
theorem entry_injective (h : m.entry p i = m'.entry p i) : m = m' :=
  calc
    m = (m.entry p i).mapping p i := (mapping_entry p m i).symm
    _ = (m'.entry p i).mapping p i := by rw [h]
    _ = m' := mapping_entry p m' i

/-! ## Pass 2 after a free pass 1 (R113, R114) -/

theorem not_inSpan_of_spanFree {e : Entry} (hfree : spanFree p m pt = true) (h : slotAt pt i = some e) :
    ¬ (m.first p ≤ i ∧ i ≤ m.last p) := by
  rintro ⟨hfirst, hlast⟩
  simp [spanFree_iff.1 hfree i hfirst hlast] at h

/-- Pass 2 writes over no entry where pass 1 has found the span free (R26). -/
theorem slotAt_commit_of_some {e : Entry} (hfree : spanFree p m pt = true) (h : slotAt pt i = some e) :
    slotAt (commit p m pt) i = some e := by
  rw [slotAt_commit (lt_length_of_slotAt h), if_neg (not_inSpan_of_spanFree hfree h), h]

end

/-! ## The page table over a request and over a step (R26, R144) -/

section
variable {s t : State}

theorem scalarRead_samePlace {w : Width} {a : Field} (h : scalarRead w a s = .next t) :
    SamePlace s t ∧ t.fsm = .idle :=
  transfer_samePlace (acceptAt_eq_next h).2.2

theorem scalarWrite_samePlace {w : Width} {a : Field} {dw : DataWord} (h : scalarWrite w a dw s = .next t) :
    SamePlace s t ∧ t.fsm = .idle := by
  obtain ⟨-, -, hserve⟩ := acceptAt_eq_next h
  split at hserve
  · exact transfer_samePlace hserve
  · cases hserve

/-- "A transfer never writes `PT`" (R144), nor the parameters, the mark or the arrivals, and it ends in `IDLE` (R201). -/
theorem exec_transfer_samePlace {i : Instr} (hi : isTransfer i = true) (h : exec i s = .next t) :
    SamePlace s t ∧ t.fsm = .idle := by
  cases i with
  | map | dump => cases hi
  | read | write => exact transfer_samePlace (acceptAt_eq_next h).2.2
  | read8 | read16 | read32 | read64 => exact scalarRead_samePlace h
  | write8 | write16 | write32 | write64 => exact scalarWrite_samePlace h

/-- All that a `DUMP` can do: its records (R180). -/
theorem execDump_eq_next (h : execDump s = .next t) :
    s.fsm = .idle ∧ t = s.respond (.records (dumpRecords s.pt)) := by
  obtain ⟨hidle, hserve⟩ := whenIdle_eq_next h
  cases hserve
  exact ⟨hidle, rfl⟩

/-- A request keeps the page table, or it is a `MAP` (R26). -/
theorem exec_pt_eq_or_map {i : Instr} (h : exec i s = .next t) :
    t.pt = s.pt ∨ ∃ dev addr len ptr, i = .map dev addr len ptr ∧ execMap dev addr len ptr s = .next t := by
  cases i with
  | map dev addr len ptr => exact .inr ⟨dev, addr, len, ptr, rfl, h⟩
  | dump => obtain ⟨-, rfl⟩ := execDump_eq_next h; exact .inl rfl
  | _ => exact .inl (exec_transfer_samePlace rfl h).1.pt

/-- A step keeps the page table, or it runs a `MAP` into a free span that is answered with `OK` (R26, R115). -/
theorem step_pt_eq_or_commit (h : step s = .next t) :
    t.pt = s.pt ∨
    ∃ r b rest dev addr len ptr, s.input = ⟨.request r, b⟩ :: rest ∧
      decode s.params r = .ok (.map dev addr len ptr) ∧
      spanFree s.params (mappingOf s.params dev addr len ptr) s.pt = true ∧
      t.pt = commit s.params (mappingOf s.params dev addr len ptr) s.pt ∧
      t.responses = s.responses ++ [.status .ok] := by
  obtain ⟨-, -, ⟨-, -, rfl⟩ | ⟨-, -, hphase⟩ | ⟨sa, bs, b, rest, -, hupdate⟩ | ⟨r, b, rest, i, hin, hdec, hexec⟩⟩ :=
    step_eq_next h
  · exact .inl rfl
  · exact .inl (fsmStep_samePlace hphase).pt
  · obtain ⟨-, -, rfl⟩ := deviceUpdate_eq_next hupdate
    exact .inl rfl
  · obtain hpt | ⟨dev, addr, len, ptr, rfl, hmap⟩ := exec_pt_eq_or_map hexec
    · exact .inl hpt
    · obtain ⟨-, -, -, -, -, ⟨hfree, rfl⟩ | ⟨-, rfl⟩⟩ := execMap_eq_next hmap
      · exact .inr ⟨r, b, rest, dev, addr, len, ptr, hin, hdec, hfree, rfl, rfl⟩
      · exact .inl rfl

end

/-! ## The bits of a slot (R27) -/

/-- Each field of an entry, at the weight of its lowest bit (R27). -/
theorem slotImage_some_toNat (e : Entry) : (slotImage (some e)).toNat =
    1 + 2 * e.dev.toNat + 2 ^ 17 * e.base.toNat + 2 ^ 49 * e.len.toNat + 2 ^ 82 * e.ptr.toNat := by
  simp only [slotImage, BitVec.toNat_append, BitVec.toNat_ofNat]
  rw [← Nat.shiftLeft_add_eq_or_of_lt (by omega), ← Nat.shiftLeft_add_eq_or_of_lt (by omega),
    ← Nat.shiftLeft_add_eq_or_of_lt (by omega), ← Nat.shiftLeft_add_eq_or_of_lt (by omega)]
  simp only [Nat.shiftLeft_eq]
  omega

section
variable (e : Entry)

/-- A field of a slot's register is read at its weight (R27). -/
theorem slotImage_field {lsb n : Nat} {f : BitVec n}
    (h : (slotImage (some e)).toNat / 2 ^ lsb % 2 ^ n = f.toNat) : (slotImage (some e)).extractLsb' lsb n = f :=
  BitVec.eq_of_toNat_eq (by rw [BitVec.extractLsb'_toNat, Nat.shiftRight_eq_div_pow, h])

theorem slotImage_valid : (slotImage (some e)).extractLsb' 0 1 = 1#1 :=
  slotImage_field e (by rw [slotImage_some_toNat, BitVec.toNat_ofNat]; omega)

theorem slotImage_dev : (slotImage (some e)).extractLsb' 1 16 = e.dev :=
  slotImage_field e (by rw [slotImage_some_toNat]; omega)

theorem slotImage_base : (slotImage (some e)).extractLsb' 17 32 = e.base :=
  slotImage_field e (by rw [slotImage_some_toNat]; omega)

theorem slotImage_len : (slotImage (some e)).extractLsb' 49 33 = e.len :=
  slotImage_field e (by rw [slotImage_some_toNat]; omega)

theorem slotImage_ptr : (slotImage (some e)).extractLsb' 82 32 = e.ptr :=
  slotImage_field e (by rw [slotImage_some_toNat]; omega)

end

/-- Reading a slot's register gives the slot back (R27). -/
theorem slotOfImage_slotImage (sl : Slot) : slotOfImage (slotImage sl) = sl := by
  cases sl with
  | none => rfl
  | some e =>
    rw [slotOfImage, if_pos (slotImage_valid e), slotImage_dev, slotImage_base, slotImage_len, slotImage_ptr]

/-! ## The state after construction (R36) -/

/-- An address whose slot is `EMPTY` is unmapped (R55). -/
theorem xlate_of_slotAt_none {p : Params} {pt : List Slot} {a : Nat} (h : slotAt pt (page p a) = none) :
    xlate p pt a = .unmapped := by
  rw [xlate, h]

/-- A store with no byte listed reads as `Store0` (R36, R233). -/
@[simp] theorem read_nil (z : StoreImage) (a : Nat) : Memory.read z [] a = storeByte0 z a := rfl

/-! ## The statements -/

/-- Settles O16: the slot that both mappings span holds the entry of each, and an entry tells its registration. -/
theorem mappingsShareNoSlot : Obligations.MappingsShareNoSlot := by
  intro p pt m m' i hm hm' hi hi'
  have hsame : some (m.entry p i) = some (m'.entry p i) :=
    (slotAt_of_mapped hm hi).symm.trans (slotAt_of_mapped hm' hi')
  exact entry_injective (Option.some.inj hsame)

/-- Settles O21: only a `MAP` answered with `OK` changes the table, and it writes into `EMPTY` slots alone. -/
theorem slotsAreWriteOnce : Obligations.SlotsAreWriteOnce := by
  intro s t i h
  obtain hpt | ⟨r, b, rest, dev, addr, len, ptr, hin, hdec, hfree, hpt, hresp⟩ := step_pt_eq_or_commit h
  · rw [hpt]
    exact ⟨fun _ he => he, fun hne => absurd rfl hne⟩
  · rw [hpt]
    exact ⟨fun _ he => slotAt_commit_of_some hfree he, fun _ => ⟨r, b, rest, dev, addr, len, ptr, hin, hdec, hresp⟩⟩

/-- Settles O22. -/
theorem slotLayout : Obligations.SlotLayout :=
  ⟨slotOfImage_slotImage, rfl, slotImage_some_toNat⟩

/-- Settles O54: no slot of the table holds an entry, and no byte of the store is listed. -/
theorem constructionLeavesEmptyMachine : Obligations.ConstructionLeavesEmptyMachine := by
  intro p i a
  have hempty : ∀ j, slotAt (State.construct p).pt j = none := slotAt_replicate p.npages
  have hstore : storeRead (State.construct p) a = storeByte0 p.store0 a := read_nil p.store0 a
  exact ⟨construct_params p, List.length_replicate, hempty i, construct_fsm p, construct_trace p, construct_refused p,
    hstore, xlate_of_slotAt_none (hempty (page p a))⟩

end Sys2Proof.Machine
end

section
/-! SUPPORT. The class of a bus address and the address that a fault there reports (R55, R137): one equation of `xlate`
for each class, and the statement about them. -/

namespace Sys2Proof.Machine

/-! ## The address that a fault reports (R137) -/

@[simp] theorem faultAddr_unmapped (a : Nat) : Xlate.unmapped.faultAddr a = a := rfl

@[simp] theorem faultAddr_belowBase (a : Nat) (e : Entry) : (Xlate.belowBase e).faultAddr a = a := rfl

@[simp] theorem faultAddr_beyondExtent (a : Nat) (e : Entry) : (Xlate.beyondExtent e).faultAddr a = e.stop := rfl

/-! ## The class of an address whose slot holds an entry (R55) -/

section
variable {p : Params} {pt : List Slot} {a : Nat} {e : Entry}

theorem xlate_of_lt_base (hslot : slotAt pt (page p a) = some e) (hbelow : a < e.base.toNat) :
    xlate p pt a = .belowBase e := by
  simp only [xlate, hslot, if_pos hbelow]

/-- An extent that ends at or below `a` begins there too, so the test against the base does not apply. -/
theorem xlate_of_stop_le (hslot : slotAt pt (page p a) = some e) (hbeyond : e.stop ≤ a) :
    xlate p pt a = .beyondExtent e := by
  have hbase : ¬ a < e.base.toNat := Nat.not_lt.2 ((Nat.le_add_right _ _).trans hbeyond)
  simp only [xlate, hslot, if_neg hbase, if_pos hbeyond]

theorem xlate_of_mem_extent (hslot : slotAt pt (page p a) = some e) (hbase : e.base.toNat ≤ a) (hstop : a < e.stop) :
    xlate p pt a = .hit e (e.ptr.toNat + (a - max e.base.toNat (pagebase p (page p a)))) := by
  simp only [xlate, hslot, if_neg (Nat.not_lt.2 hbase), if_neg (Nat.not_le.2 hstop)]

end

/-! ## The statement -/

/-- Settles O18: an `EMPTY` slot, then an entry with the address below, past and inside its extent. -/
theorem translationClasses : Obligations.TranslationClasses := by
  intro p pt a
  refine ⟨fun hempty => ?unmapped, fun e hslot =>
    ⟨fun hbelow => ?belowBase, fun hbeyond => ?beyondExtent, fun hbase hstop => ?hit⟩⟩
  case unmapped =>
    have hclass : xlate p pt a = .unmapped := xlate_of_slotAt_none hempty
    exact ⟨hclass, by rw [hclass, faultAddr_unmapped]⟩
  case belowBase =>
    have hclass : xlate p pt a = .belowBase e := xlate_of_lt_base hslot hbelow
    exact ⟨hclass, by rw [hclass, faultAddr_belowBase]⟩
  case beyondExtent =>
    have hclass : xlate p pt a = .beyondExtent e := xlate_of_stop_le hslot hbeyond
    exact ⟨hclass, by rw [hclass, faultAddr_beyondExtent, Entry.stop]⟩
  case hit => exact xlate_of_mem_extent hslot hbase hstop

end Sys2Proof.Machine
end

section
/-! SUPPORT. The checks of the decoder on the request word (R82): one equation of `decodeWord` for each check that fails
and one for a word that passes them all, and the statement about them. -/

namespace Sys2Proof

variable {p : Params} {q : ReqWord}

/-! ## The opcode as a field and as a number -/

theorem opField_toNat_eq_zero : (opField q).toNat = 0 ↔ opField q = 0 := BitVec.toNat_inj (y := 0)

theorem opField_toNat_eq_three : (opField q).toNat = 3 ↔ opField q = 3 := BitVec.toNat_inj (y := 3)

/-! ## When a check passes -/

theorem unusedDevPtr_pass (h : opField q ≠ 0 → devField q = 0 ∧ ptrField q = 0) :
    ¬ ((opField q).toNat ≠ 0 ∧ (devField q ≠ 0 ∨ ptrField q ≠ 0)) := by
  rintro ⟨hop, hfield⟩
  obtain ⟨hdev, hptr⟩ := h (mt opField_toNat_eq_zero.2 hop)
  exact hfield.elim (absurd hdev) (absurd hptr)

theorem unusedLen_pass (h : 3 ≤ (opField q).toNat → lenField q = 0) :
    ¬ (3 ≤ (opField q).toNat ∧ lenField q ≠ 0) :=
  fun ⟨hop, hlen⟩ => hlen (h hop)

theorem unusedAddr_pass (h : opField q = 3 → addrField q = 0) : ¬ ((opField q).toNat = 3 ∧ addrField q ≠ 0) :=
  fun ⟨hop, haddr⟩ => haddr (h (opField_toNat_eq_three.1 hop))

theorem addressRange_pass (h : opField q ≠ 3 → (addrField q).toNat < p.top) :
    ¬ ((opField q).toNat ≠ 3 ∧ p.top ≤ (addrField q).toNat) :=
  fun ⟨hop, haddr⟩ => Nat.not_lt.2 haddr (h (mt opField_toNat_eq_three.2 hop))

/-! ## What the decoder answers, check after check -/

theorem decodeWord_of_op_ge (hop : 0xC ≤ (opField q).toNat) : decodeWord p q = .error .reservedOpcode := by
  simp only [decodeWord, if_pos hop]

theorem decodeWord_of_rsv (hop : (opField q).toNat < 0xC) (hrsv : rsvField q ≠ 0) :
    decodeWord p q = .error .reservedField := by
  simp only [decodeWord, if_neg (Nat.not_le.2 hop), if_pos hrsv]

section
variable (hop : (opField q).toNat < 0xC) (hrsv : rsvField q = 0)
include hop hrsv

theorem decodeWord_of_dev_or_ptr (hmap : opField q ≠ 0) (hfield : devField q ≠ 0 ∨ ptrField q ≠ 0) :
    decodeWord p q = .error .reservedField := by
  have hfails : (opField q).toNat ≠ 0 ∧ (devField q ≠ 0 ∨ ptrField q ≠ 0) :=
    ⟨mt opField_toNat_eq_zero.1 hmap, hfield⟩
  simp only [decodeWord, if_neg (Nat.not_le.2 hop), if_neg (not_not.2 hrsv), if_pos hfails]

variable (hdevptr : opField q ≠ 0 → devField q = 0 ∧ ptrField q = 0)
include hdevptr

theorem decodeWord_of_len (hge : 3 ≤ (opField q).toNat) (hlen : lenField q ≠ 0) :
    decodeWord p q = .error .reservedField := by
  simp only [decodeWord, if_neg (Nat.not_le.2 hop), if_neg (not_not.2 hrsv), if_neg (unusedDevPtr_pass hdevptr),
    if_pos (And.intro hge hlen)]

variable (hlen : 3 ≤ (opField q).toNat → lenField q = 0)
include hlen

theorem decodeWord_of_dump_addr (hdump : opField q = 3) (haddr : addrField q ≠ 0) :
    decodeWord p q = .error .reservedField := by
  have hfails : (opField q).toNat = 3 ∧ addrField q ≠ 0 := ⟨opField_toNat_eq_three.2 hdump, haddr⟩
  simp only [decodeWord, if_neg (Nat.not_le.2 hop), if_neg (not_not.2 hrsv), if_neg (unusedDevPtr_pass hdevptr),
    if_neg (unusedLen_pass hlen), if_pos hfails]

theorem decodeWord_of_top_le (hdump : opField q ≠ 3) (hrange : p.top ≤ (addrField q).toNat) :
    decodeWord p q = .error .addressRange := by
  have hfails : (opField q).toNat ≠ 3 ∧ p.top ≤ (addrField q).toNat := ⟨mt opField_toNat_eq_three.1 hdump, hrange⟩
  simp only [decodeWord, if_neg (Nat.not_le.2 hop), if_neg (not_not.2 hrsv), if_neg (unusedDevPtr_pass hdevptr),
    if_neg (unusedLen_pass hlen), if_neg (unusedAddr_pass fun h => absurd h hdump), if_pos hfails]

theorem decodeWord_of_checks_pass (haddr : opField q = 3 → addrField q = 0)
    (hrange : opField q ≠ 3 → (addrField q).toNat < p.top) : decodeWord p q = .ok (headerOf q) := by
  simp only [decodeWord, if_neg (Nat.not_le.2 hop), if_neg (not_not.2 hrsv), if_neg (unusedDevPtr_pass hdevptr),
    if_neg (unusedLen_pass hlen), if_neg (unusedAddr_pass haddr), if_neg (addressRange_pass hrange)]

end

/-! ## The statement -/

/-- Settles O5: one equation of the decoder for each clause. `DUMP`'s own check leaves its opcode, 3, below 0xC. -/
theorem decoderChecksInOrder : Obligations.DecoderChecksInOrder := by
  intro p q
  refine ⟨decodeWord_of_op_ge, decodeWord_of_rsv, decodeWord_of_dev_or_ptr, ?len, ?dumpAddr, decodeWord_of_top_le,
    decodeWord_of_checks_pass⟩
  case len =>
    intro hop hrsv hdev hptr
    exact decodeWord_of_len hop hrsv fun _ => ⟨hdev, hptr⟩
  case dumpAddr =>
    intro hdump hrsv hdev hptr hlen
    have hop : (opField q).toNat < 0xC := by rw [opField_toNat_eq_three.2 hdump]; decide
    exact decodeWord_of_dump_addr hop hrsv (fun _ => ⟨hdev, hptr⟩) (fun _ => hlen) hdump

end Sys2Proof
end

section
/-! SUPPORT. What `MAP` answers (R111, R113): one equation for each precondition that fails, one for a span with an occupied
slot, and the statements about them. -/

namespace Sys2Proof.Machine

/-- The request `MAP` is its meaning (R84). -/
theorem exec_map (dev : DevId) (addr len ptr : Field) (s : State) :
    exec (.map dev addr len ptr) s = execMap dev addr len ptr s := rfl

/-! ## The span of the operands (R112) -/

section
variable (p : Params) (dev : DevId) (addr len ptr : Field)

@[simp] theorem mappingOf_first : (mappingOf p dev addr len ptr).first p = page p addr.toNat := rfl

/-- A slot's length field is wider than the operand (R22), so no bit of the length is lost. -/
@[simp] theorem mappingOf_stop : (mappingOf p dev addr len ptr).stop = addr.toNat + len.toNat := by
  have hlen : (len.setWidth 33).toNat = len.toNat := BitVec.toNat_setWidth_of_le (by decide)
  rw [Mapping.stop, mappingOf, hlen]

@[simp] theorem mappingOf_last :
    (mappingOf p dev addr len ptr).last p = page p (addr.toNat + len.toNat - 1) := by
  rw [Mapping.last, mappingOf_stop]

end

/-! ## Pass 1 over an occupied slot (R113) -/

theorem spanFree_eq_false_of_slotAt {p : Params} {m : Mapping} {pt : List Slot} {i : Nat} {e : Entry}
    (hfirst : m.first p ≤ i) (hlast : i ≤ m.last p) (hslot : slotAt pt i = some e) : spanFree p m pt = false :=
  Bool.eq_false_iff.2 fun hfree => not_inSpan_of_spanFree hfree hslot ⟨hfirst, hlast⟩

/-! ## What `MAP` answers, check after check (R111, R113) -/

section
variable {dev : DevId} {addr len ptr : Field} {s : State}

/-- A span of at least one byte that ends by TOP starts below TOP: R111 implies the check of R50. -/
theorem lt_top_of_span {p : Params} (hlen : len ≠ 0) (htop : addr.toNat + len.toNat ≤ p.top) : addr.toNat < p.top := by
  have hpos : len.toNat ≠ 0 := fun hzero => hlen (BitVec.eq_of_toNat_eq hzero)
  omega

variable (hidle : s.fsm = .idle)
include hidle

theorem execMap_of_len_eq_zero (haddr : addr.toNat < s.params.top) (hlen : len = 0) :
    execMap dev addr len ptr s = .refused .mapZeroLength := by
  rw [execMap, acceptAt_ok hidle haddr, if_pos hlen]

variable (hlen : len ≠ 0)
include hlen

theorem execMap_of_top_lt (haddr : addr.toNat < s.params.top) (hend : s.params.top < addr.toNat + len.toNat) :
    execMap dev addr len ptr s = .refused .mapBeyondTop := by
  rw [execMap, acceptAt_ok hidle haddr, if_neg hlen, if_pos hend]

variable (htop : addr.toNat + len.toNat ≤ s.params.top)
include htop

theorem execMap_of_storeSize_lt (hbuffer : s.params.storeSize < ptr.toNat + len.toNat) :
    execMap dev addr len ptr s = .refused .mapBufferRange := by
  rw [execMap, acceptAt_ok hidle (lt_top_of_span hlen htop), if_neg hlen, if_neg (Nat.not_lt.2 htop), if_pos hbuffer]

theorem execMap_of_spanFree_eq_false (hbuffer : ptr.toNat + len.toNat ≤ s.params.storeSize)
    (hspan : spanFree s.params (mappingOf s.params dev addr len ptr) s.pt = false) :
    execMap dev addr len ptr s = .next (s.respond (.status .alreadyMapped)) := by
  rw [execMap, acceptAt_ok hidle (lt_top_of_span hlen htop), if_neg hlen, if_neg (Nat.not_lt.2 htop),
    if_neg (Nat.not_lt.2 hbuffer), if_neg (Bool.eq_false_iff.1 hspan)]

end

/-! ## The statements -/

/-- Settles O12: the occupied slot is in the span of the operands, so pass 1 fails and pass 2 is not reached. -/
theorem mapConflictChangesNothing : Obligations.MapConflictChangesNothing := by
  intro dev addr len ptr s i e hidle hlen htop hbuffer hfirst hlast hslot
  have hspan : spanFree s.params (mappingOf s.params dev addr len ptr) s.pt = false :=
    spanFree_eq_false_of_slotAt ((mappingOf_first ..).trans_le hfirst) (hlast.trans_eq (mappingOf_last ..).symm) hslot
  rw [exec_map, execMap_of_spanFree_eq_false hidle hlen htop hbuffer hspan, State.respond]

/-- Settles O13: one equation of `MAP` for each precondition. -/
theorem mapPreconditionsInOrder : Obligations.MapPreconditionsInOrder := by
  intro dev addr len ptr s hidle haddr
  rw [exec_map]
  exact ⟨execMap_of_len_eq_zero hidle haddr, fun hlen => execMap_of_top_lt hidle hlen haddr,
    fun hlen htop => execMap_of_storeSize_lt hidle hlen htop⟩

end Sys2Proof.Machine
end

section
/-! SUPPORT. When a transfer is refused at TOP (R138): the chunk of a `HIT` (R132, R133), the engine run from one `LOOKUP`
to the next (R135), the ten transfers as runs of the engine (R130, R160), and the statement about them. -/

namespace Sys2Proof.Machine

/-! ## Runs of `HIT`s -/

section
variable {p : Params} {pt : List Slot} {a c n : Nat}

theorem allHits_iff : allHits p pt a n = true ↔
    a + n ≤ p.top ∧ ∀ j, j < n → (xlate p pt (a + j)).storeAddr.isSome = true := by
  simp only [allHits, Bool.and_eq_true, decide_eq_true_eq, List.all_eq_true, List.mem_range]

theorem allHits_zero (ha : a ≤ p.top) : allHits p pt a 0 = true :=
  allHits_iff.2 ⟨ha, fun _ hj => absurd hj (Nat.not_lt_zero _)⟩

/-- The first address of a run of at least one byte is a `HIT`. -/
theorem storeAddr_isSome_of_allHits (h : allHits p pt a n = true) (hn : 0 < n) :
    (xlate p pt a).storeAddr.isSome = true :=
  (allHits_iff.1 h).2 0 hn

/-- A run of `HIT`s, cut in two. -/
theorem allHits_add : allHits p pt a (c + n) = true ↔ allHits p pt a c = true ∧ allHits p pt (a + c) n = true := by
  simp only [allHits_iff]
  constructor
  · rintro ⟨htop, hhit⟩
    refine ⟨⟨by omega, fun j hj => hhit j (by omega)⟩, by omega, fun j hj => ?_⟩
    rw [Nat.add_assoc]
    exact hhit (c + j) (by omega)
  · rintro ⟨⟨-, hfst⟩, htop, hsnd⟩
    refine ⟨by omega, fun j hj => ?_⟩
    rcases Nat.lt_or_ge j c with hlt | hge
    · exact hfst j hlt
    · have hrest := hsnd (j - c) (by omega)
      rwa [show a + c + (j - c) = a + j by omega] at hrest

/-! ## Bytes left at TOP (R138) -/

/-- The premise of R138: `n` bytes from the bus address `a` on go past TOP, and each of them below TOP is a `HIT`. -/
def RunsPastTop (p : Params) (pt : List Slot) (a n : Nat) : Prop :=
  p.top < a + n ∧ allHits p pt a (p.top - a) = true

theorem runsPastTop_top (hn : n ≠ 0) : RunsPastTop p pt p.top n :=
  ⟨by omega, by rw [Nat.sub_self]; exact allHits_zero le_rfl⟩

theorem not_runsPastTop_zero (ha : a ≤ p.top) : ¬ RunsPastTop p pt a 0 :=
  fun ⟨hpast, _⟩ => Nat.not_lt.2 ha hpast

/-- "A transfer that faults before reaching TOP is not refused" (R138). -/
theorem not_runsPastTop_of_fault (ha : a < p.top) (hfault : (xlate p pt a).storeAddr = none) :
    ¬ RunsPastTop p pt a n := by
  rintro ⟨-, hhits⟩
  have hfirst := storeAddr_isSome_of_allHits hhits (Nat.sub_pos_of_lt ha)
  rw [hfault] at hfirst
  cases hfirst

/-- Whether bytes are left at TOP does not change as `HIT`s move (R138). -/
theorem runsPastTop_advance (hhits : allHits p pt a c = true) (hc : c ≤ n) :
    RunsPastTop p pt (a + c) (n - c) ↔ RunsPastTop p pt a n := by
  have htop : a + c ≤ p.top := (allHits_iff.1 hhits).1
  have hlen : p.top - a = c + (p.top - (a + c)) := by omega
  have hend : a + c + (n - c) = a + n := by omega
  rw [RunsPastTop, RunsPastTop, hend, hlen, allHits_add, and_iff_right hhits]

end

/-! ## The chunk of a `HIT` (R132, R133) -/

section
variable {p : Params} {pt : List Slot} {x : Xfer} {e : Entry} {sa : Nat}

theorem chunkLen_le_rem : chunkLen e x ≤ x.rem := Nat.min_le_left _ _

/-- "`chunk` is at least 1, because a HIT has cur < e.base + e.len and rem ≥ 1" (R132). -/
theorem chunkLen_pos (hrem : x.rem ≠ 0) (hhit : xlate p pt x.cur = .hit e sa) : 0 < chunkLen e x :=
  Nat.lt_min.2 ⟨Nat.pos_of_ne_zero hrem, Nat.sub_pos_of_lt (hit_bounds hhit).2⟩

/-- A chunk lies wholly inside one mapping (R133), so its bytes are `HIT`s and its store bytes are in the store. -/
theorem chunk_inside (hp : p.Legal) (ht : tableOk p pt = true) (hhit : xlate p pt x.cur = .hit e sa) :
    allHits p pt x.cur (chunkLen e x) = true ∧ sa + chunkLen e x ≤ p.storeSize := by
  obtain ⟨m, hm, hcov, rfl⟩ := mapped_of_hit ht hhit
  obtain ⟨-, hstop, hbuffer⟩ := fits_iff.1 (mapped_iff.1 hm).1
  obtain ⟨hbase, hcur⟩ := covers_iff.1 hcov
  have hchunk : x.cur + chunkLen (m.entry p (page p x.cur)) x ≤ m.stop := by
    have hle : chunkLen (m.entry p (page p x.cur)) x ≤ m.stop - x.cur := Nat.min_le_right _ _
    omega
  have hsa : sa = m.ptr.toNat + (x.cur - m.base.toNat) := by
    rw [xlate_of_mapped hp hm hcov] at hhit
    exact ((Xlate.hit.injEq ..).mp hhit).2.symm
  refine ⟨allHits_iff.2 ⟨hchunk.trans hstop, fun j hj => ?_⟩, ?_⟩
  · have hcovj : m.covers (x.cur + j) = true := covers_iff.2 ⟨by omega, by omega⟩
    rw [xlate_of_mapped hp hm hcovj]
    rfl
  · rw [Mapping.stop] at hchunk
    omega

end

/-! ## The engine, phase by phase (R135) -/

section
variable {s t : State} {x : Xfer} {n : Nat}

theorem fsmStep_lookup (h : s.fsm = .lookup x) : fsmStep s = lookupStep s x := by
  rw [fsmStep, h]

theorem fsmStep_done (h : s.fsm = .done x) : fsmStep s = .next (doneStep s x) := by
  rw [fsmStep, h]

theorem runFsm_of_next (hbusy : s.fsm ≠ .idle) (h : fsmStep s = .next t) : runFsm (n + 1) s = runFsm n t := by
  rw [runFsm_succ hbusy, h]

theorem runFsm_of_refused {r : Refusal} (hbusy : s.fsm ≠ .idle) (h : fsmStep s = .refused r) :
    runFsm (n + 1) s = .refused r := by
  rw [runFsm_succ hbusy, h]

theorem ne_idle_of_lookup (h : s.fsm = .lookup x) : s.fsm ≠ .idle := by
  rw [h]; exact Fsm.noConfusion

/-- `DONE` goes to `IDLE`, where the run ends. -/
theorem runFsm_done (h : s.fsm = .done x) : runFsm (n + 1) s = .next (doneStep s x) := by
  have hbusy : s.fsm ≠ .idle := by rw [h]; exact Fsm.noConfusion
  rw [runFsm_of_next hbusy (fsmStep_done h), runFsm_idle (doneStep_fsm s x)]

/-- A copy inside the store goes back to `LOOKUP`, its registers moved on by the chunk (R134). -/
theorem fsmStep_copy {c sa : Nat} (h : s.fsm = .copy x c sa) (hstore : sa + c ≤ s.params.storeSize) :
    ∃ t y, fsmStep s = .next t ∧ t.fsm = .lookup y ∧ y.cur = x.cur + c ∧ y.rem = x.rem - c := by
  rw [fsmStep, h]
  simp only [copyStep, if_neg (Nat.not_lt.2 hstore)]
  cases x.dir with
  | read => exact ⟨_, _, rfl, rfl, rfl, rfl⟩
  | write => exact ⟨_, _, rfl, rfl, rfl, rfl⟩

section
variable (h : s.fsm = .lookup x)
include h

theorem fsmStep_lookup_of_rem_eq_zero (hrem : x.rem = 0) : fsmStep s = .next { s with fsm := .done x } := by
  rw [fsmStep_lookup h, lookupStep, if_pos hrem]

variable (hrem : x.rem ≠ 0)
include hrem

theorem fsmStep_lookup_of_top_le (hcur : s.params.top ≤ x.cur) : fsmStep s = .refused .transferBeyondTop := by
  rw [fsmStep_lookup h, lookupStep, if_neg hrem, if_pos hcur]

variable (hcur : x.cur < s.params.top)
include hcur

theorem fsmStep_lookup_of_hit {e : Entry} {sa : Nat} (hhit : xlate s.params s.pt x.cur = .hit e sa) :
    fsmStep s = .next { s with fsm := .copy x (chunkLen e x) sa } := by
  rw [fsmStep_lookup h, lookupStep, if_neg hrem, if_neg (Nat.not_le.2 hcur), hhit]

theorem fsmStep_lookup_of_fault (hfault : (xlate s.params s.pt x.cur).storeAddr = none) :
    fsmStep s = raiseAccessFault s x ((xlate s.params s.pt x.cur).faultAddr x.cur) := by
  rw [fsmStep_lookup h, lookupStep, if_neg hrem, if_neg (Nat.not_le.2 hcur)]
  cases hclass : xlate s.params s.pt x.cur with
  | hit e sa => rw [hclass] at hfault; cases hfault
  | unmapped | belowBase | beyondExtent => rfl

/-- A `HIT` in a good table: two phases move one chunk, and the engine is back in `LOOKUP` (R135). -/
theorem runFsm_chunk {e : Entry} {sa : Nat} (hp : s.params.Legal) (ht : tableOk s.params s.pt = true)
    (hhit : xlate s.params s.pt x.cur = .hit e sa) :
    ∃ t y, (∀ n, runFsm (n + 2) s = runFsm n t) ∧ SamePlace s t ∧ t.fsm = .lookup y ∧
      y.cur = x.cur + chunkLen e x ∧ y.rem = x.rem - chunkLen e x := by
  have hlookup := fsmStep_lookup_of_hit h hrem hcur hhit
  obtain ⟨t, y, hcopy, hfsm, hycur, hyrem⟩ :=
    fsmStep_copy (s := { s with fsm := .copy x (chunkLen e x) sa }) rfl (chunk_inside hp ht hhit).2
  refine ⟨t, y, fun n => ?_, (fsmStep_samePlace hlookup).trans (fsmStep_samePlace hcopy), hfsm, hycur, hyrem⟩
  rw [runFsm_of_next (ne_idle_of_lookup h) hlookup, runFsm_of_next Fsm.noConfusion hcopy]

/-- An access fault completes the request, or the notifier's request is refused (R201, R202): neither is the refusal of
R138. -/
theorem runFsm_fault_ne_beyondTop (hfault : (xlate s.params s.pt x.cur).storeAddr = none) :
    runFsm (n + 2) s ≠ .refused .transferBeyondTop := by
  have hbusy := ne_idle_of_lookup h
  have hstep := fsmStep_lookup_of_fault h hrem hcur hfault
  cases hraise : raiseAccessFault s x ((xlate s.params s.pt x.cur).faultAddr x.cur) with
  | next t =>
    have hdone : t.fsm = .done x := by rw [(raiseAccessFault_eq_next hraise).1]
    rw [runFsm_of_next hbusy (hstep.trans hraise), runFsm_done hdone]
    nofun
  | fault f => exact absurd hraise raiseAccessFault_not_fault
  | refused r =>
    obtain ⟨rfl, -⟩ := raiseAccessFault_eq_refused hraise
    rw [runFsm_of_refused hbusy (hstep.trans hraise)]
    nofun

end

/-- R138 from any `LOOKUP` of a good table, with two phases for each byte left and two more (R136): by induction on the
bytes left, which every chunk lessens. -/
theorem runFsm_lookup_beyondTop_iff (h : s.fsm = .lookup x) (hp : s.params.Legal) (ht : tableOk s.params s.pt = true)
    (hcur : x.cur ≤ s.params.top) (hfuel : 2 * x.rem + 2 ≤ n) :
    runFsm n s = .refused .transferBeyondTop ↔ RunsPastTop s.params s.pt x.cur x.rem := by
  induction hk : x.rem using Nat.strong_induction_on generalizing s x n with
  | _ k ih =>
  subst hk
  obtain ⟨n, rfl⟩ : ∃ m, n = m + 2 := ⟨n - 2, by omega⟩
  by_cases hrem : x.rem = 0
  · have hend : runFsm (n + 2) s = .next (doneStep { s with fsm := .done x } x) := by
      rw [runFsm_of_next (ne_idle_of_lookup h) (fsmStep_lookup_of_rem_eq_zero h hrem), runFsm_done rfl]
    rw [hend, hrem]
    exact iff_of_false (by nofun) (not_runsPastTop_zero hcur)
  obtain htop | hlt := hcur.eq_or_lt
  · rw [runFsm_of_refused (ne_idle_of_lookup h) (fsmStep_lookup_of_top_le h hrem htop.ge), htop]
    exact iff_of_true rfl (runsPastTop_top hrem)
  cases hclass : (xlate s.params s.pt x.cur).storeAddr with
  | none => exact iff_of_false (runFsm_fault_ne_beyondTop h hrem hlt hclass) (not_runsPastTop_of_fault hlt hclass)
  | some =>
    obtain ⟨e, sa, hhit⟩ := storeAddr_isSome_iff.1 (Option.isSome_of_eq_some hclass)
    obtain ⟨t, y, hrun, hsame, hfsm, hycur, hyrem⟩ := runFsm_chunk h hrem hlt hp ht hhit
    have hhits := (chunk_inside hp ht hhit).1
    have hpos : 0 < chunkLen e x := chunkLen_pos hrem hhit
    have hadvance := runsPastTop_advance hhits chunkLen_le_rem
    have hrest := ih y.rem (by omega) (n := n) hfsm (by rwa [hsame.params]) (by rwa [hsame.params, hsame.pt])
      (by rw [hsame.params, hycur]; exact (allHits_iff.1 hhits).1) (by omega) rfl
    rw [hrun, hrest, hsame.params, hsame.pt, hycur, hyrem, hadvance]

/-- R138 for one transfer of the engine. -/
theorem transfer_beyondTop_iff {dir : AccessKind} {start cnt : Nat} {data : List Byte} {want : Want}
    (hp : s.params.Legal) (ht : tableOk s.params s.pt = true) (hstart : start < s.params.top) :
    transfer dir start cnt data want s = .refused .transferBeyondTop ↔ RunsPastTop s.params s.pt start cnt :=
  runFsm_lookup_beyondTop_iff (startTransfer_fsm ..) hp ht hstart.le le_rfl

end

/-! ## The ten transfers (R130, R160) -/

section
variable {s : State} {i : Instr} {w : Width} {addr : Field}

theorem inSpace_iff {p : Params} : p.inSpace addr = true ↔ addr.toNat < p.top := decide_eq_true_iff

theorem scalarRead_eq_transfer (hidle : s.fsm = .idle) (haddr : s.params.inSpace addr = true) :
    scalarRead w addr s = transfer .read addr.toNat w.bytes [] (.value w) s :=
  acceptAt_ok hidle (inSpace_iff.1 haddr)

theorem scalarWrite_eq_transfer {dw : DataWord} (hidle : s.fsm = .idle)
    (hwf : (s.params.inSpace addr && w.fits dw) = true) :
    scalarWrite w addr dw s =
      transfer .write addr.toNat w.bytes (splitValue s.params.scalarOrder w dw) .completion s := by
  obtain ⟨haddr, hfits⟩ := Bool.and_eq_true_iff.1 hwf
  rw [scalarWrite, acceptAt_ok hidle (inSpace_iff.1 haddr), if_pos hfits]

/-- A well-formed transfer starts at a bus address (R50, R82). -/
theorem moveRange_start_lt_top {p : Params} (hi : isTransfer i = true) (hwf : i.wellFormed p = true) :
    (moveRange i).1 < p.top := by
  cases i with
  | map | dump => cases hi
  | read | read8 | read16 | read32 | read64 => exact inSpace_iff.1 hwf
  | write | write8 | write16 | write32 | write64 => exact inSpace_iff.1 (Bool.and_eq_true_iff.1 hwf).1

/-- "One engine performs every byte-range transfer" (R130). -/
theorem exec_eq_transfer (hidle : s.fsm = .idle) (hi : isTransfer i = true) (hwf : i.wellFormed s.params = true) :
    ∃ dir data want, exec i s = transfer dir (moveRange i).1 (moveRange i).2 data want s := by
  have hstart := moveRange_start_lt_top hi hwf
  cases i with
  | map | dump => cases hi
  | read | write => exact ⟨_, _, _, acceptAt_ok hidle hstart⟩
  | read8 | read16 | read32 | read64 => exact ⟨_, _, _, scalarRead_eq_transfer hidle hwf⟩
  | write8 | write16 | write32 | write64 => exact ⟨_, _, _, scalarWrite_eq_transfer hidle hwf⟩

end

/-! ## The statement -/

/-- Settles O27: the request is one transfer of the engine, which is refused so exactly where it runs past TOP. -/
theorem transferBeyondTopRefused : Obligations.TransferBeyondTopRefused := by
  intro i s hinv hi hwf
  obtain ⟨dir, data, want, hexec⟩ := exec_eq_transfer hinv.idle hi hwf
  rw [hexec, transfer_beyondTop_iff hinv.legal hinv.table (moveRange_start_lt_top hi hwf), RunsPastTop]

end Sys2Proof.Machine
end

section
/-! SUPPORT. A transfer of `HIT`s only (R132 to R136, R201): what it reads, what it stores, and how it ends. -/

namespace Sys2Proof.Machine

/-! ## The bytes of a chunk, through the page table and in the store (R56, R133) -/

section
variable {p : Params} {pt : List Slot} {a sa c n : Nat}

/-- Inside one mapping the store addresses rise with the bus addresses (R56). -/
theorem storeAddrOf_add_of_hit {e : Entry} {j : Nat} (hp : p.Legal) (ht : tableOk p pt = true)
    (hhit : xlate p pt a = .hit e sa) (hj : a + j < e.stop) : storeAddrOf p pt (a + j) = sa + j := by
  obtain ⟨m, hm, hcov, rfl⟩ := mapped_of_hit ht hhit
  obtain ⟨hbase, -⟩ := covers_iff.1 hcov
  have hcovj : m.covers (a + j) = true := covers_iff.2 ⟨by omega, hj⟩
  rw [xlate_of_mapped hp hm hcov] at hhit
  obtain ⟨-, rfl⟩ := (Xlate.hit.injEq ..).mp hhit
  rw [storeAddrOf, xlate_of_mapped hp hm hcovj, Xlate.storeAddr, Option.getD_some]
  omega

theorem busBytes_eq_readBytes {s : State} (h : ∀ j, j < n → storeAddrOf s.params s.pt (a + j) = sa + j) :
    s.busBytes a n = Memory.readBytes s.params.store0 s.store sa n := by
  rw [readBytes_eq_map, State.busBytes]
  refine List.map_congr_left fun j hj => ?_
  rw [State.busByte, h j (List.mem_range.1 hj), storeRead]

theorem storeThrough_eq_writeBytes {m : Memory} {bs : List Byte}
    (h : ∀ j, j < bs.length → storeAddrOf p pt (a + j) = sa + j) :
    storeThrough p pt m a bs = Memory.writeBytes p.store0 m sa bs := by
  induction bs generalizing a sa m with
  | nil => rfl
  | cons b bs ih =>
    have hhead : storeAddrOf p pt a = sa := h 0 (Nat.succ_pos _)
    have htail : ∀ j, j < bs.length → storeAddrOf p pt (a + 1 + j) = sa + 1 + j := fun j hj => by
      rw [Nat.add_right_comm a, Nat.add_right_comm sa]
      exact h (j + 1) (Nat.succ_lt_succ hj)
    rw [storeThrough, hhead, ih htail, Memory.writeBytes]

/-! ## Runs of bytes, cut in two -/

theorem busBytes_add (s : State) (a c n : Nat) : s.busBytes a (c + n) = s.busBytes a c ++ s.busBytes (a + c) n := by
  simp only [State.busBytes, List.range_add, List.map_append, List.map_map, Function.comp_def, Nat.add_assoc]

theorem storeThrough_take_add (m : Memory) (a c n : Nat) (bs : List Byte) :
    storeThrough p pt m a (bs.take (c + n)) =
      storeThrough p pt (storeThrough p pt m a (bs.take c)) (a + c) ((bs.drop c).take n) := by
  induction c generalizing m a bs with
  | zero => simp [storeThrough]
  | succ c ih =>
    cases bs with
    | nil => simp [storeThrough]
    | cons b bs =>
      rw [Nat.add_right_comm, List.take_succ_cons, List.take_succ_cons, List.drop_succ_cons, storeThrough, storeThrough,
        ih, Nat.add_assoc a 1 c, Nat.add_comm 1 c]

end

/-! ## A transfer with its next `n` bytes moved, all of them `HIT`s -/

section
variable {s : State} {x : Xfer} {c n : Nat}

/-- What a `READ` has read then (R140). -/
def Xfer.movedAfterHits (s : State) (x : Xfer) (n : Nat) : List Byte :=
  match x.dir with
  | .read => x.moved ++ s.busBytes x.cur n
  | .write => x.moved

/-- The registers then (R134). -/
def Xfer.afterHits (s : State) (x : Xfer) (n : Nat) : Xfer := { x.advance n with moved := x.movedAfterHits s n }

/-- The store then, into which only a `WRITE` has written (R142). -/
def storeAfterHits (s : State) (x : Xfer) (n : Nat) : Memory :=
  match x.dir with
  | .read => s.store
  | .write => storeThrough s.params s.pt s.store x.cur ((x.data.drop x.done).take n)

/-- The engine then, back in `LOOKUP` (R135). -/
def moveHits (s : State) (x : Xfer) (n : Nat) : State :=
  { s with store := storeAfterHits s x n, fsm := .lookup (x.afterHits s n) }

@[simp] theorem afterHits_dir : (x.afterHits s n).dir = x.dir := rfl
@[simp] theorem afterHits_cur : (x.afterHits s n).cur = x.cur + n := rfl
@[simp] theorem afterHits_done : (x.afterHits s n).done = x.done + n := rfl
@[simp] theorem afterHits_rem : (x.afterHits s n).rem = x.rem - n := rfl
@[simp] theorem afterHits_moved : (x.afterHits s n).moved = x.movedAfterHits s n := rfl
@[simp] theorem afterHits_data : (x.afterHits s n).data = x.data := rfl
@[simp] theorem moveHits_params : (moveHits s x n).params = s.params := rfl
@[simp] theorem moveHits_pt : (moveHits s x n).pt = s.pt := rfl
@[simp] theorem moveHits_store : (moveHits s x n).store = storeAfterHits s x n := rfl

theorem movedAfterHits_read (h : x.dir = .read) : x.movedAfterHits s n = x.moved ++ s.busBytes x.cur n := by
  rw [Xfer.movedAfterHits, h]

theorem movedAfterHits_write (h : x.dir = .write) : x.movedAfterHits s n = x.moved := by
  rw [Xfer.movedAfterHits, h]

theorem storeAfterHits_read (h : x.dir = .read) : storeAfterHits s x n = s.store := by
  rw [storeAfterHits, h]

theorem storeAfterHits_write (h : x.dir = .write) :
    storeAfterHits s x n = storeThrough s.params s.pt s.store x.cur ((x.data.drop x.done).take n) := by
  rw [storeAfterHits, h]

theorem afterHits_zero (s : State) (x : Xfer) : x.afterHits s 0 = x := by
  have hmoved : x.movedAfterHits s 0 = x.moved := by
    cases hdir : x.dir with
    | read => rw [movedAfterHits_read hdir]; exact List.append_nil _
    | write => exact movedAfterHits_write hdir
  rw [Xfer.afterHits, hmoved]
  rfl

theorem moveHits_zero (h : s.fsm = .lookup x) : moveHits s x 0 = s := by
  have hstore : storeAfterHits s x 0 = s.store := by
    cases hdir : x.dir with
    | read => exact storeAfterHits_read hdir
    | write => rw [storeAfterHits_write hdir, List.take_zero, storeThrough]
  rw [moveHits, hstore, afterHits_zero, ← h]

theorem busBytes_moveHits (h : x.dir = .read) (a : Nat) : (moveHits s x c).busBytes a n = s.busBytes a n := by
  simp only [State.busBytes, State.busByte, storeRead, moveHits_params, moveHits_pt, moveHits_store,
    storeAfterHits_read h]

theorem movedAfterHits_moveHits :
    (x.afterHits s c).movedAfterHits (moveHits s x c) n = x.movedAfterHits s (c + n) := by
  cases hdir : x.dir with
  | read =>
    simp only [movedAfterHits_read, afterHits_dir, hdir, afterHits_moved, afterHits_cur, busBytes_moveHits, busBytes_add,
      List.append_assoc]
  | write => simp only [movedAfterHits_write, afterHits_dir, hdir, afterHits_moved]

theorem storeAfterHits_moveHits :
    storeAfterHits (moveHits s x c) (x.afterHits s c) n = storeAfterHits s x (c + n) := by
  cases hdir : x.dir with
  | read => simp only [storeAfterHits_read, afterHits_dir, hdir, moveHits_store]
  | write =>
    simp only [storeAfterHits_write, afterHits_dir, hdir, moveHits_params, moveHits_pt, moveHits_store, afterHits_cur,
      afterHits_data, afterHits_done, storeThrough_take_add, List.drop_drop]

theorem afterHits_moveHits : (x.afterHits s c).afterHits (moveHits s x c) n = x.afterHits s (c + n) := by
  rw [Xfer.afterHits, movedAfterHits_moveHits]
  simp only [Xfer.afterHits, Xfer.advance, Nat.add_assoc, Nat.sub_sub]

/-- A transfer moves its bytes alike however they are cut (R139). -/
theorem moveHits_moveHits : moveHits (moveHits s x c) (x.afterHits s c) n = moveHits s x (c + n) := by
  rw [moveHits, storeAfterHits_moveHits, afterHits_moveHits, moveHits, moveHits]

/-! ## The engine over `HIT`s (R135) -/

/-- A copy whose bytes are those of its bus addresses moves them (R134). -/
theorem fsmStep_copy_of_storeAddrOf {sa : Nat} (h : s.fsm = .copy x c sa) (hstore : sa + c ≤ s.params.storeSize)
    (haddr : ∀ j, j < c → storeAddrOf s.params s.pt (x.cur + j) = sa + j) :
    fsmStep s = .next (moveHits s x c) := by
  rw [fsmStep, h]
  simp only [copyStep, if_neg (Nat.not_lt.2 hstore)]
  cases hdir : x.dir with
  | read =>
    rw [moveHits, storeAfterHits_read hdir, Xfer.afterHits, movedAfterHits_read hdir, busBytes_eq_readBytes haddr]
  | write =>
    have hbytes : ∀ j, j < ((x.data.drop x.done).take c).length → storeAddrOf s.params s.pt (x.cur + j) = sa + j :=
      fun j hj => haddr j (hj.trans_le (List.length_take_le ..))
    rw [moveHits, storeAfterHits_write hdir, Xfer.afterHits, movedAfterHits_write hdir, storeThrough_eq_writeBytes hbytes]
    rfl

/-- A `HIT` in a good table: two phases move its chunk (R132 to R135). -/
theorem runFsm_moveHits_chunk {e : Entry} {sa : Nat} (h : s.fsm = .lookup x) (hp : s.params.Legal)
    (ht : tableOk s.params s.pt = true) (hrem : x.rem ≠ 0) (hcur : x.cur < s.params.top)
    (hhit : xlate s.params s.pt x.cur = .hit e sa) :
    runFsm (n + 2) s = runFsm n (moveHits s x (chunkLen e x)) := by
  have hlookup := fsmStep_lookup_of_hit h hrem hcur hhit
  have haddr : ∀ j, j < chunkLen e x → storeAddrOf s.params s.pt (x.cur + j) = sa + j := fun j hj => by
    have hle : chunkLen e x ≤ e.stop - x.cur := Nat.min_le_right _ _
    exact storeAddrOf_add_of_hit hp ht hhit (by omega)
  have hcopy := fsmStep_copy_of_storeAddrOf (s := { s with fsm := .copy x (chunkLen e x) sa }) rfl
    (chunk_inside hp ht hhit).2 haddr
  rw [runFsm_of_next (ne_idle_of_lookup h) hlookup, runFsm_of_next Fsm.noConfusion hcopy]
  rfl

/-- A transfer with `HIT`s only left moves them all and completes, two phases for each byte left and two more being
enough (R136): by induction on the bytes left, which every chunk lessens. -/
theorem runFsm_of_allHits (h : s.fsm = .lookup x) (hp : s.params.Legal) (ht : tableOk s.params s.pt = true)
    (hhits : allHits s.params s.pt x.cur x.rem = true) (hfuel : 2 * x.rem + 2 ≤ n) :
    runFsm n s = .next (doneStep (moveHits s x x.rem) (x.afterHits s x.rem)) := by
  induction hk : x.rem using Nat.strong_induction_on generalizing s x n with
  | _ k ih =>
  subst hk
  obtain ⟨n, rfl⟩ : ∃ m, n = m + 2 := ⟨n - 2, by omega⟩
  by_cases hrem : x.rem = 0
  · rw [runFsm_of_next (ne_idle_of_lookup h) (fsmStep_lookup_of_rem_eq_zero h hrem), runFsm_done rfl, hrem,
      moveHits_zero h, afterHits_zero]
    rfl
  · obtain ⟨e, sa, hhit⟩ := storeAddr_isSome_iff.1 (storeAddr_isSome_of_allHits hhits (Nat.pos_of_ne_zero hrem))
    have hpos : 0 < chunkLen e x := chunkLen_pos hrem hhit
    have hsplit : chunkLen e x + (x.rem - chunkLen e x) = x.rem := Nat.add_sub_cancel' chunkLen_le_rem
    have hcur : x.cur < s.params.top := by have := (allHits_iff.1 hhits).1; omega
    have hrest : allHits s.params s.pt (x.cur + chunkLen e x) (x.rem - chunkLen e x) = true :=
      (allHits_add.1 (hsplit.symm ▸ hhits)).2
    have hrun := ih (x.rem - chunkLen e x) (by omega) (s := moveHits s x (chunkLen e x))
      (x := x.afterHits s (chunkLen e x)) (n := n) rfl hp ht hrest (by rw [afterHits_rem]; omega) rfl
    rw [runFsm_moveHits_chunk h hp ht hrem hcur hhit, hrun, moveHits_moveHits, afterHits_moveHits, hsplit]

end

/-! ## A whole transfer of `HIT`s -/

/-- `DONE` sends the value of a scalar read whose bytes have all moved: it takes no draw (R162). -/
theorem doneStep_value {s : State} {x : Xfer} {w : Width} (hended : s.ended = false) (hwant : x.want = .value w)
    (hrem : x.rem = 0) : doneStep s x =
      State.respond { s with fsm := .idle } (.value w (assembleValue s.params.scalarOrder w x.moved)) := by
  have hdraws : x.moved ++ draws s.drawCount 0 = x.moved := List.append_nil _
  simp only [doneStep, hended, hwant, hrem, hdraws]
  rfl

theorem doneStep_completion {s : State} {x : Xfer} (hended : s.ended = false) (hwant : x.want = .completion) :
    doneStep s x = State.respond { s with fsm := .idle } .completion := by
  simp only [doneStep, hended, hwant]
  rfl

/-- The state after a write of `bs` to the `HIT`s from `a` on: the store and the response, nothing else (R142, R144). -/
def State.afterWrite (s : State) (a : Nat) (bs : List Byte) : State :=
  State.respond { s with store := storeThrough s.params s.pt s.store a bs } .completion

@[simp] theorem afterWrite_params (s : State) (a : Nat) (bs : List Byte) : (s.afterWrite a bs).params = s.params := rfl
@[simp] theorem afterWrite_responses (s : State) (a : Nat) (bs : List Byte) :
    (s.afterWrite a bs).responses = s.responses ++ [.completion] := rfl

section
variable {s : State} {start cnt : Nat} (hidle : s.fsm = .idle) (hended : s.ended = false) (hp : s.params.Legal)
  (ht : tableOk s.params s.pt = true)
include hidle hended hp ht

/-- A scalar read's transfer answers the value of the bytes at its addresses and changes nothing else (R144, R162). -/
theorem transfer_value_of_allHits {w : Width} (hhits : allHits s.params s.pt start cnt = true) :
    transfer .read start cnt [] (.value w) s =
      .next (s.respond (.value w (assembleValue s.params.scalarOrder w (s.busBytes start cnt)))) := by
  have hrun := runFsm_of_allHits (startTransfer_fsm s .read start cnt [] (.value w)) hp ht hhits le_rfl
  rw [doneStep_value (by exact hended) (by rfl) (by exact Nat.sub_self cnt), ← hidle] at hrun
  exact hrun

/-- A write's transfer stores its data through the page table and completes (R142). -/
theorem transfer_completion_of_allHits {data : List Byte}
    (hhits : allHits s.params s.pt start data.length = true) :
    transfer .write start data.length data .completion s = .next (s.afterWrite start data) := by
  have hrun := runFsm_of_allHits (startTransfer_fsm s .write start data.length data .completion) hp ht hhits le_rfl
  have hdata : (data.drop 0).take data.length = data := List.take_length
  rw [doneStep_completion (by exact hended) (by rfl), moveHits, storeAfterHits_write (by rfl), hdata, ← hidle] at hrun
  exact hrun

end

/-! ## The scalar accessors over `HIT`s (R160 to R166) -/

section
variable {s : State} {w : Width} {addr : Field} {dw : DataWord}

theorem width_bytes_pos (w : Width) : 0 < w.bytes := by cases w <;> decide

theorem width_bits_eq (w : Width) : w.bits = 8 * w.bytes := by cases w <;> rfl

@[simp] theorem orderBytes_length (o : ScalarOrder) (bs : List Byte) : (orderBytes o bs).length = bs.length := by
  cases o with
  | little => rfl
  | big => exact List.length_reverse

@[simp] theorem splitValue_length (o : ScalarOrder) (w : Width) (dw : DataWord) :
    (splitValue o w dw).length = w.bytes := by
  rw [splitValue, orderBytes_length, List.length_map, List.length_range]

theorem inSpace_of_allHits {p : Params} {pt : List Slot} (hhits : allHits p pt addr.toNat w.bytes = true) :
    p.inSpace addr = true := by
  have hend := (allHits_iff.1 hhits).1
  have hpos := width_bytes_pos w
  exact inSpace_iff.2 (by omega)

variable (hidle : s.fsm = .idle) (hended : s.ended = false) (hp : s.params.Legal)
  (ht : tableOk s.params s.pt = true) (hhits : allHits s.params s.pt addr.toNat w.bytes = true)
include hidle hended hp ht hhits

/-- `READn` of `HIT`s (R162). -/
theorem scalarRead_of_allHits : scalarRead w addr s =
    .next (s.respond (.value w (assembleValue s.params.scalarOrder w (s.busBytes addr.toNat w.bytes)))) := by
  rw [scalarRead_eq_transfer hidle (inSpace_of_allHits hhits), transfer_value_of_allHits hidle hended hp ht hhits]

/-- `WRITEn` to `HIT`s (R166). -/
theorem scalarWrite_of_allHits (hfits : w.fits dw = true) :
    scalarWrite w addr dw s = .next (s.afterWrite addr.toNat (splitValue s.params.scalarOrder w dw)) := by
  have hlen := splitValue_length s.params.scalarOrder w dw
  have hwf : (s.params.inSpace addr && w.fits dw) = true :=
    Bool.and_eq_true_iff.2 ⟨inSpace_of_allHits hhits, hfits⟩
  rw [← hlen] at hhits
  rw [scalarWrite_eq_transfer hidle hwf, ← hlen, transfer_completion_of_allHits hidle hended hp ht hhits]

end

end Sys2Proof.Machine
end

section
/-! SUPPORT. The value of a scalar and its bytes (R161, R165), bytes read back after a write (R61, R168), and the statements
about the scalar accessors over `HIT`s. -/

namespace Sys2Proof.Machine

/-! ## The sum of R161 -/

theorem leNat_append (bs cs : List Byte) : leNat (bs ++ cs) = leNat bs + 2 ^ (8 * bs.length) * leNat cs := by
  induction bs with
  | nil => simp [leNat]
  | cons b bs ih =>
    rw [List.cons_append, leNat, leNat, ih, List.length_cons, Nat.mul_succ, Nat.pow_add]
    ring

/-- Byte `k` of the sum is the `k`-th byte. -/
theorem leNat_div_mod {bs : List Byte} {k : Nat} (hk : k < bs.length) :
    leNat bs / 2 ^ (8 * k) % 2 ^ 8 = bs[k].toNat := by
  induction bs generalizing k with
  | nil => cases hk
  | cons b bs ih =>
    have hb := b.isLt
    cases k with
    | zero => simp only [leNat, List.getElem_cons_zero]; omega
    | succ k =>
      have hshift : leNat (b :: bs) / 256 = leNat bs := by rw [leNat]; omega
      rw [Nat.mul_succ, Nat.add_comm, Nat.pow_add, ← Nat.div_div_eq_div_mul]
      rw [show (2 : Nat) ^ 8 = 256 from rfl, hshift, List.getElem_cons_succ]
      exact ih (Nat.lt_of_succ_lt_succ hk)

/-- "bits [8k+7:8k] of the value" (R161). -/
theorem extractLsb'_leNat {bs : List Byte} {k n : Nat} (hk : k < bs.length) (hn : 8 * bs.length ≤ n) :
    (BitVec.ofNat n (leNat bs)).extractLsb' (8 * k) 8 = bs[k] := by
  have hbits : n = 8 * k + (8 + (n - (8 * k + 8))) := by omega
  apply BitVec.eq_of_toNat_eq
  rw [← leNat_div_mod hk, BitVec.extractLsb'_toNat, Nat.shiftRight_eq_div_pow, BitVec.toNat_ofNat, hbits, Nat.pow_add,
    Nat.mod_mul_right_div_self, Nat.pow_add, Nat.mod_mul_right_mod]

/-- The sum over the low bytes of a data word is its low bits. -/
theorem leNat_wordBytes (dw : DataWord) (n : Nat) :
    leNat ((List.range n).map (wordByte dw)) = dw.toNat % 2 ^ (8 * n) := by
  induction n with
  | zero => rw [Nat.mul_zero, Nat.pow_zero, Nat.mod_one]; rfl
  | succ n ih =>
    have hbyte : leNat [wordByte dw n] = dw.toNat / 2 ^ (8 * n) % 2 ^ 8 := by
      simp [leNat, wordByte, Nat.shiftRight_eq_div_pow]
    rw [List.range_succ, List.map_append, leNat_append, ih, List.map_singleton, hbyte, List.length_map,
      List.length_range, Nat.mul_succ, Nat.pow_add, Nat.mod_mul]

@[simp] theorem orderBytes_orderBytes (o : ScalarOrder) (bs : List Byte) : orderBytes o (orderBytes o bs) = bs := by
  cases o with
  | little => rfl
  | big => exact List.reverse_reverse bs

/-- A scalar read's value from a scalar write's bytes is the value written, in either byte order (R168, D16). -/
theorem assembleValue_splitValue (o : ScalarOrder) (w : Width) (dw : DataWord) :
    assembleValue o w (splitValue o w dw) = dw.setWidth w.bits := by
  apply BitVec.eq_of_toNat_eq
  rw [assembleValue, splitValue, orderBytes_orderBytes, leNat_wordBytes, ← width_bits_eq, BitVec.toNat_ofNat, Nat.mod_mod,
    BitVec.toNat_setWidth]

/-! ## Reading bytes back (R61, R69) -/

section
variable {p : Params} {pt : List Slot} {m : Memory} {a n : Nat}

theorem noAliases_succ (h : noAliases p pt a (n + 1) = true) :
    (∀ j, j < n → storeAddrOf p pt (a + 1 + j) ≠ storeAddrOf p pt a) ∧ noAliases p pt (a + 1) n = true := by
  have hshift : (fun j => storeAddrOf p pt (a + j)) ∘ Nat.succ = fun j => storeAddrOf p pt (a + 1 + j) :=
    funext fun j => congrArg _ (Nat.succ_add_eq_add_succ a j).symm
  simp only [noAliases, decide_eq_true_eq] at h ⊢
  rw [List.range_succ_eq_map, List.map_cons, List.map_map, hshift, List.nodup_cons, List.mem_map] at h
  obtain ⟨hfirst, hrest⟩ := h
  exact ⟨fun j hj heq => hfirst ⟨j, List.mem_range.2 hj, heq⟩, hrest⟩

/-- A byte that no address of the range translates to is as before. -/
theorem read_storeThrough_of_ne (h : risingFrom 0 m = true) {c : Nat} {bs : List Byte}
    (hne : ∀ j, j < bs.length → storeAddrOf p pt (a + j) ≠ c) :
    Memory.read p.store0 (storeThrough p pt m a bs) c = Memory.read p.store0 m c := by
  induction bs generalizing m a with
  | nil => rfl
  | cons b bs ih =>
    have hhead : storeAddrOf p pt a ≠ c := hne 0 (Nat.succ_pos _)
    have htail : ∀ j, j < bs.length → storeAddrOf p pt (a + 1 + j) ≠ c := fun j hj => by
      rw [Nat.add_right_comm]
      exact hne (j + 1) (Nat.succ_lt_succ hj)
    rw [storeThrough, ih (risingFrom_write h _ b) htail, read_write h, if_neg hhead]

/-- Bytes at store addresses that are all different read back as they were stored (R168). -/
theorem map_read_storeThrough (h : risingFrom 0 m = true) {bs : List Byte}
    (halias : noAliases p pt a bs.length = true) :
    ((List.range bs.length).map fun j =>
      Memory.read p.store0 (storeThrough p pt m a bs) (storeAddrOf p pt (a + j))) = bs := by
  induction bs generalizing m a with
  | nil => rfl
  | cons b bs ih =>
    obtain ⟨hne, hrest⟩ := noAliases_succ halias
    have hm := risingFrom_write (z := p.store0) h (storeAddrOf p pt a) b
    have hhead := (read_storeThrough_of_ne hm hne).trans ((read_write h _ _ b).trans (if_pos rfl))
    have htail := ih hm hrest
    rw [List.length_cons, List.range_succ_eq_map, List.map_cons, List.map_map]
    refine congrArg₂ _ hhead (Eq.trans (List.map_congr_left fun j _ => ?_) htail)
    rw [Function.comp_apply, storeThrough, Nat.succ_add_eq_add_succ]

/-- R61 through the bus: the bytes at the addresses just written. -/
theorem busBytes_afterWrite {s : State} {bs : List Byte} (hstore : Memory.wf s.params s.store = true)
    (halias : noAliases s.params s.pt a bs.length = true) : (s.afterWrite a bs).busBytes a bs.length = bs :=
  map_read_storeThrough (wf_iff.1 hstore).1 halias

end

/-! ## The statements -/

/-- Settles O45: the value is the sum of R161 over the bytes at the addresses. -/
theorem scalarReadAnswersLittleEndian : Obligations.ScalarReadAnswersLittleEndian := by
  intro w addr s hinv hended horder hhits
  have hlen : (s.busBytes addr.toNat w.bytes).length = w.bytes := by
    rw [State.busBytes, List.length_map, List.length_range]
  refine ⟨_, (exec_readN w addr s).trans (scalarRead_of_allHits hinv.idle hended hinv.legal hinv.table hhits),
    fun k hk => ?_⟩
  rw [horder, assembleValue, orderBytes, extractLsb'_leNat (hlen.symm ▸ hk) (by rw [hlen, width_bits_eq])]
  simp only [State.busBytes, List.getElem_map, List.getElem_range]

/-- Settles O47: in the order `little` the bytes sent are those of the data word, lowest first. -/
theorem scalarWriteStoresLittleEndian : Obligations.ScalarWriteStoresLittleEndian := by
  intro w addr dw s hinv hended horder hfits hhits
  rw [exec_writeN, scalarWrite_of_allHits hinv.idle hended hinv.legal hinv.table hhits hfits, horder]
  rfl

/-- Settles O50: the bytes written are read back, and the byte order that split the value assembles it again. -/
theorem scalarRoundTrip : Obligations.ScalarRoundTrip := by
  intro w addr dw s hinv hended hfits hhits halias
  have hwrite := scalarWrite_of_allHits hinv.idle hended hinv.legal hinv.table hhits hfits
  have hread := scalarRead_of_allHits (s := s.afterWrite addr.toNat (splitValue s.params.scalarOrder w dw))
    hinv.idle hended hinv.legal hinv.table hhits
  have hlen := splitValue_length s.params.scalarOrder w dw
  have hbytes := busBytes_afterWrite hinv.store (hlen.symm ▸ halias)
  rw [hlen] at hbytes
  rw [hbytes, afterWrite_params, assembleValue_splitValue] at hread
  refine ⟨_, _, (exec_writeN ..).trans hwrite, (exec_readN ..).trans hread, ?_, rfl⟩
  rw [respond_responses, afterWrite_responses, List.append_assoc, List.singleton_append]

end Sys2Proof.Machine
end

section
/-! SUPPORT. The records of a `DUMP` by slot index (R180), the records of one mapping's span (R181), and the statements
about them. -/

namespace Sys2Proof.Machine

/-- The request `DUMP` is its meaning (R84). -/
theorem exec_dump (s : State) : exec .dump s = execDump s := rfl

/-- In `IDLE` nothing keeps a `DUMP` out (R180, R206). -/
theorem execDump_of_idle {s : State} (hidle : s.fsm = .idle) :
    execDump s = .next (s.respond (.records (dumpRecords s.pt))) := whenIdle_idle hidle

/-! ## The records of some slots (R180) -/

/-- The records of the occupied slots among the indices `is`, in their order. -/
def recordsOf (pt : List Slot) (is : List Nat) : List DumpRecord :=
  is.filterMap fun i => (slotAt pt i).map fun e => ⟨e.base, e.len⟩

/-- A table is its slots in index order (R11, R21). -/
theorem map_slotAt_range (pt : List Slot) : (List.range pt.length).map (slotAt pt) = pt :=
  List.ext_getElem (by simp) fun i _ hi => by simp [slotAt, hi]

/-- "in index order" (R180): `dumpRecords` goes over the table, `recordsOf` over the indices. -/
theorem dumpRecords_eq_recordsOf (pt : List Slot) : dumpRecords pt = recordsOf pt (List.range pt.length) := by
  conv_lhs => rw [dumpRecords, ← map_slotAt_range pt, List.filterMap_map]
  rfl

section
variable {p : Params} {pt : List Slot} {m : Mapping}

theorem recordsOf_append (is js : List Nat) : recordsOf pt (is ++ js) = recordsOf pt is ++ recordsOf pt js :=
  List.filterMap_append

/-- One record for each occupied slot (R181). -/
theorem length_recordsOf (is : List Nat) : (recordsOf pt is).length = is.countP fun i => (slotAt pt i).isSome := by
  rw [recordsOf, List.length_filterMap_eq_countP]
  simp only [Option.isSome_map]

/-- One record for each occupied slot of the table (R181). -/
theorem length_dumpRecords (pt : List Slot) : (dumpRecords pt).length = pt.countP Option.isSome := by
  rw [dumpRecords, List.length_filterMap_eq_countP]
  simp only [Option.isSome_map]

/-! ## The records of a mapping (R181) -/

/-- The slots of a mapping's span differ in `ptr` alone (R23), which a record does not carry (R182). -/
theorem recordsOf_span (hm : m.mapped p pt = true) :
    recordsOf pt (List.range' (m.first p) (m.last p + 1 - m.first p)) =
      List.replicate (m.last p + 1 - m.first p) ⟨m.base, m.len⟩ := by
  have hrecord : ∀ i ∈ List.range' (m.first p) (m.last p + 1 - m.first p),
      ((slotAt pt i).map fun e => (⟨e.base, e.len⟩ : DumpRecord)) = some ⟨m.base, m.len⟩ := fun i hi => by
    rw [slotAt_of_mapped hm (inSpan_iff.2 (mem_span.1 hi)), Option.map_some, entry_base, entry_len]
  rw [recordsOf, List.filterMap_congr hrecord, List.filterMap_eq_map', List.map_const', List.length_range']

/-- A mapping's span lies in the table (R24, R111). -/
theorem span_le_npages (hp : p.Legal) (hfits : m.fits p = true) :
    m.first p + (m.last p + 1 - m.first p) ≤ p.npages := by
  obtain ⟨hlen, htop, -⟩ := fits_iff.1 hfits
  have hstop : m.stop = m.base.toNat + m.len.toNat := rfl
  have hfirst : m.first p ≤ m.last p := page_mono (by omega)
  have hlast : m.last p < p.npages := page_lt_npages hp (by omega)
  omega

end

/-- The indices of `a + b + c` slots: `a` before a span, its `b`, and `c` after it. -/
theorem range_add_add (a b c : Nat) :
    List.range (a + b + c) = List.range a ++ List.range' a b ++ List.range' (a + b) c := by
  rw [List.range_eq_range', List.range_eq_range', ← List.range'_append_1, ← List.range'_append_1, Nat.zero_add,
    Nat.zero_add]

/-! ## The statements -/

/-- Settles O52: `DUMP` goes over the table, which is its slots from 0 to NPAGES - 1. -/
theorem dumpListsOccupiedSlots : Obligations.DumpListsOccupiedSlots := by
  intro s hidle hlen
  rw [exec_dump, execDump_of_idle hidle, dumpRecords_eq_recordsOf, hlen]
  rfl

/-- Settles O53: the indices of the table are those before the mapping's span, the span's and those after it. -/
theorem dumpRepeatsEachMapping : Obligations.DumpRepeatsEachMapping := by
  intro p pt m hp htable hm
  have hlen : pt.length = p.npages := (tableOk_iff.1 htable).1
  obtain ⟨rest, hcut⟩ := Nat.exists_eq_add_of_le (span_le_npages hp (mapped_iff.1 hm).1)
  refine ⟨length_dumpRecords pt, hlen ▸ List.length_filterMap_le .., recordsOf pt (List.range (m.first p)),
    recordsOf pt (List.range' (m.first p + (m.last p + 1 - m.first p)) rest), ?_, length_recordsOf _⟩
  rw [dumpRecords_eq_recordsOf, hlen, hcut, range_add_add, recordsOf_append, recordsOf_append, recordsOf_span hm]

end Sys2Proof.Machine
end

section
/-! SUPPORT. The events of a request (R193, R194): none of `MAP` and `DUMP`, none of a transfer of `HIT`s, one of a transfer
that an access fault stops, and the statement about them. -/

namespace Sys2Proof.Machine

/-! ## The requests that move no bytes -/

section
variable {s t : State}

/-- `MAP` and `DUMP` look up no address, and so emit nothing (R194). -/
theorem exec_trace_of_not_transfer {i : Instr} (hi : isTransfer i = false) (h : exec i s = .next t) :
    t.trace = s.trace := by
  cases i with
  | map dev addr len ptr =>
    rw [exec_map] at h
    obtain ⟨-, -, -, -, -, ⟨-, rfl⟩ | ⟨-, rfl⟩⟩ := execMap_eq_next h <;> rfl
  | dump =>
    rw [exec_dump] at h
    obtain ⟨-, rfl⟩ := execDump_eq_next h
    rfl
  | _ => cases hi

/-! ## A request that moves bytes, as a transfer of its own kind (R130, R191) -/

theorem scalarWrite_eq_next {w : Width} {addr : Field} {dw : DataWord} (h : scalarWrite w addr dw s = .next t) :
    addr.toNat < s.params.top ∧
      transfer .write addr.toNat w.bytes (splitValue s.params.scalarOrder w dw) .completion s = .next t := by
  obtain ⟨-, hstart, hserve⟩ := acceptAt_eq_next h
  split at hserve
  · exact ⟨hstart, hserve⟩
  · cases hserve

/-- Where a request that moves bytes answers a next state, well-formed or not, one transfer of its kind answers it. -/
theorem exec_eq_next_transfer {i : Instr} (hi : isTransfer i = true) (h : exec i s = .next t) :
    (moveRange i).1 < s.params.top ∧
      ∃ data want, transfer (accessKindOf i) (moveRange i).1 (moveRange i).2 data want s = .next t := by
  cases i with
  | map | dump => cases hi
  | read | write | read8 | read16 | read32 | read64 =>
    obtain ⟨-, hstart, hserve⟩ := acceptAt_eq_next h
    exact ⟨hstart, _, _, hserve⟩
  | write8 | write16 | write32 | write64 =>
    obtain ⟨hstart, hserve⟩ := scalarWrite_eq_next h
    exact ⟨hstart, _, _, hserve⟩

end

/-! ## The events of a transfer -/

@[simp] theorem moveHits_trace (s : State) (x : Xfer) (n : Nat) : (moveHits s x n).trace = s.trace := rfl

section
variable {s t : State} {x : Xfer} {n : Nat}

/-- An access fault emits one event, of the transfer's direction, on its way to `DONE` and `IDLE` (R193, R201). -/
theorem runFsm_trace_of_fault (h : s.fsm = .lookup x) (hrem : x.rem ≠ 0) (hcur : x.cur < s.params.top)
    (hfault : (xlate s.params s.pt x.cur).storeAddr = none) (hrun : runFsm (n + 2) s = .next t) :
    t.trace = s.trace ++ [⟨(xlate s.params s.pt x.cur).faultAddr x.cur, x.dir⟩] := by
  have hbusy := ne_idle_of_lookup h
  have hstep := fsmStep_lookup_of_fault h hrem hcur hfault
  cases hraise : raiseAccessFault s x ((xlate s.params s.pt x.cur).faultAddr x.cur) with
  | next u =>
    obtain ⟨hu, -⟩ := raiseAccessFault_eq_next hraise
    have hdone : u.fsm = .done x := by rw [hu]
    rw [runFsm_of_next hbusy (hstep.trans hraise), runFsm_done hdone] at hrun
    cases hrun
    rw [doneStep_trace, hu]
  | fault f => exact absurd hraise raiseAccessFault_not_fault
  | refused r =>
    rw [runFsm_of_refused hbusy (hstep.trans hraise)] at hrun
    cases hrun

/-- From a `LOOKUP` with some byte left that is no `HIT`, a run that answers emits one event: by induction on the bytes
left, where every chunk of `HIT`s emits none and leaves that byte still to come. -/
theorem runFsm_trace_of_not_allHits (h : s.fsm = .lookup x) (hp : s.params.Legal) (ht : tableOk s.params s.pt = true)
    (hcur : x.cur ≤ s.params.top) (hfuel : 2 * x.rem + 2 ≤ n)
    (hmiss : ¬ allHits s.params s.pt x.cur x.rem = true) (hrun : runFsm n s = .next t) :
    ∃ f, t.trace = s.trace ++ [⟨f, x.dir⟩] := by
  induction hk : x.rem using Nat.strong_induction_on generalizing s x n with
  | _ k ih =>
  subst hk
  obtain ⟨n, rfl⟩ : ∃ m, n = m + 2 := ⟨n - 2, by omega⟩
  have hrem : x.rem ≠ 0 := fun h0 => hmiss (h0 ▸ allHits_zero hcur)
  obtain htop | hlt := hcur.eq_or_lt
  · rw [runFsm_of_refused (ne_idle_of_lookup h) (fsmStep_lookup_of_top_le h hrem htop.ge)] at hrun
    cases hrun
  cases hclass : (xlate s.params s.pt x.cur).storeAddr with
  | none => exact ⟨_, runFsm_trace_of_fault h hrem hlt hclass hrun⟩
  | some =>
    obtain ⟨e, sa, hhit⟩ := storeAddr_isSome_iff.1 (Option.isSome_of_eq_some hclass)
    have hhits := (chunk_inside (x := x) hp ht hhit).1
    have hpos : 0 < chunkLen e x := chunkLen_pos hrem hhit
    have hsplit : chunkLen e x + (x.rem - chunkLen e x) = x.rem := Nat.add_sub_cancel' chunkLen_le_rem
    have hrest : ¬ allHits s.params s.pt (x.cur + chunkLen e x) (x.rem - chunkLen e x) = true :=
      fun hall => hmiss (hsplit ▸ allHits_add.2 ⟨hhits, hall⟩)
    rw [runFsm_moveHits_chunk h hp ht hrem hlt hhit] at hrun
    exact ih (x.rem - chunkLen e x) (by omega) (s := moveHits s x (chunkLen e x)) (x := x.afterHits s (chunkLen e x))
      rfl hp ht (allHits_iff.1 hhits).1 (by rw [afterHits_rem]; omega) hrest hrun rfl

end

section
variable {s t : State} {dir : AccessKind} {start cnt : Nat} {data : List Byte} {want : Want} (hp : s.params.Legal)
  (ht : tableOk s.params s.pt = true) (hrun : transfer dir start cnt data want s = .next t)
include hp ht hrun

theorem transfer_trace_of_allHits (hhits : allHits s.params s.pt start cnt = true) : t.trace = s.trace := by
  have hend := runFsm_of_allHits (startTransfer_fsm s dir start cnt data want) hp ht hhits le_rfl
  cases hrun.symm.trans hend
  rw [doneStep_trace, moveHits_trace, startTransfer_trace]

theorem transfer_trace_of_not_allHits (hstart : start < s.params.top)
    (hmiss : ¬ allHits s.params s.pt start cnt = true) : ∃ f, t.trace = s.trace ++ [⟨f, dir⟩] :=
  runFsm_trace_of_not_allHits (startTransfer_fsm s dir start cnt data want) hp ht hstart.le le_rfl hmiss hrun

end

/-! ## The statement -/

/-- Settles O28: a request that moves bytes is one transfer of its kind, which the first byte that is no `HIT` ends with
its one event. -/
theorem oneEventPerFaultingTransfer : Obligations.OneEventPerFaultingTransfer := by
  intro i s t hinv hexec
  refine ⟨fun hi => exec_trace_of_not_transfer hi hexec, fun hi hhits => ?_, fun hi hmiss => ?_⟩
  · obtain ⟨-, data, want, hrun⟩ := exec_eq_next_transfer hi hexec
    exact transfer_trace_of_allHits hinv.legal hinv.table hrun hhits
  · obtain ⟨hstart, data, want, hrun⟩ := exec_eq_next_transfer hi hexec
    exact transfer_trace_of_not_allHits hinv.legal hinv.table hrun hstart (Bool.eq_false_iff.1 hmiss)

end Sys2Proof.Machine
end

section
/-! SUPPORT. The decoder and the encoder as two directions of one map (R80 to R86): the words that pass the decoder's
checks, the header of a term and of a word, the rows of the opcode table, and the statements about them. -/

namespace Sys2Proof

/-! ## The words that pass the checks (R82) -/

/-- A request word that passes every check of R82. -/
structure WordOk (p : Params) (q : ReqWord) : Prop where
  op : (opField q).toNat < 0xC
  rsv : rsvField q = 0
  devPtr : opField q ≠ 0 → devField q = 0 ∧ ptrField q = 0
  len : 3 ≤ (opField q).toNat → lenField q = 0
  dumpAddr : opField q = 3 → addrField q = 0
  range : opField q ≠ 3 → (addrField q).toNat < p.top

section
variable {p : Params} {q : ReqWord} {h : Header} {d : PortData} {i : Instr}

theorem wordOk_of_decodeWord (hok : decodeWord p q = .ok h) : WordOk p q where
  op := by
    by_contra hop
    rw [decodeWord_of_op_ge (Nat.not_lt.1 hop)] at hok
    cases hok
  rsv := by
    by_contra hrsv
    simp only [decodeWord, if_pos hrsv] at hok
    split at hok <;> cases hok
  devPtr hmap := by
    rw [Ne, ← opField_toNat_eq_zero] at hmap
    simp only [decodeWord] at hok
    split_ifs at hok with h1 h2 h3
    simpa [hmap] using h3
  len hge := by
    simp only [decodeWord] at hok
    split_ifs at hok with h1 h2 h3 h4
    simpa [hge] using h4
  dumpAddr hdump := by
    rw [← opField_toNat_eq_three] at hdump
    simp only [decodeWord] at hok
    split_ifs at hok with h1 h2 h3 h4 h5
    simpa [hdump] using h5
  range hdump := by
    rw [Ne, ← opField_toNat_eq_three] at hdump
    simp only [decodeWord] at hok
    split_ifs at hok with h1 h2 h3 h4 h5 h6
    simpa [hdump] using h6

/-- What the decoder answers on a word (R82). -/
theorem decodeWord_eq_ok_iff : decodeWord p q = .ok h ↔ WordOk p q ∧ headerOf q = h := by
  have hpass : WordOk p q → decodeWord p q = .ok (headerOf q) := fun w =>
    decodeWord_of_checks_pass w.op w.rsv w.devPtr w.len w.dumpAddr w.range
  constructor
  · intro hok
    have hword := wordOk_of_decodeWord hok
    exact ⟨hword, Except.ok.inj ((hpass hword).symm.trans hok)⟩
  · rintro ⟨hword, rfl⟩
    exact hpass hword

/-! ## The header of a word and of a term (R84) -/

/-- The opcode of `READn` by its width (R84). -/
def Width.readOp : Width → BitVec 4
  | .w8 => 0x4#4
  | .w16 => 0x5#4
  | .w32 => 0x6#4
  | .w64 => 0x7#4

/-- The opcode of `WRITEn` by its width (R84). -/
def Width.writeOp : Width → BitVec 4
  | .w8 => 0x8#4
  | .w16 => 0x9#4
  | .w32 => 0xA#4
  | .w64 => 0xB#4

/-- The opcodes of the scalars are two blocks of four, each by width (R84). -/
theorem scalarOp_eq : ∀ op : BitVec 4, 4 ≤ op.toNat → op.toNat < 0xC →
    op = if op.toNat < 8 then (widthOfOp op.toNat).readOp else (widthOfOp op.toNat).writeOp := by decide

/-- The opcodes below 0xC, and what each stands for (R84). -/
theorem headerOf_cases (hop : (opField q).toNat < 0xC) :
    (opField q = 0 ∧ headerOf q = .map (devField q) (addrField q) (lenField q) (ptrField q)) ∨
    (opField q = 1 ∧ headerOf q = .read (addrField q) (lenField q)) ∨
    (opField q = 2 ∧ headerOf q = .write (addrField q) (lenField q)) ∨
    (opField q = 3 ∧ headerOf q = .dump) ∨
    (∃ w, opField q = w.readOp ∧ headerOf q = .readN w (addrField q)) ∨
    (∃ w, opField q = w.writeOp ∧ headerOf q = .writeN w (addrField q)) := by
  unfold headerOf
  split
  case h_1 h0 => exact .inl ⟨BitVec.eq_of_toNat_eq h0, rfl⟩
  case h_2 h1 => exact .inr (.inl ⟨BitVec.eq_of_toNat_eq h1, rfl⟩)
  case h_3 h2 => exact .inr (.inr (.inl ⟨BitVec.eq_of_toNat_eq h2, rfl⟩))
  case h_4 h3 => exact .inr (.inr (.inr (.inl ⟨BitVec.eq_of_toNat_eq h3, rfl⟩)))
  case h_5 h0 h1 h2 h3 =>
    have hge : 4 ≤ (opField q).toNat := by
      by_contra hlt
      generalize (opField q).toNat = n at *
      interval_cases n <;> contradiction
    have hscalar := scalarOp_eq (opField q) hge hop
    split_ifs at hscalar ⊢
    · exact .inr (.inr (.inr (.inr (.inl ⟨_, hscalar, rfl⟩))))
    · exact .inr (.inr (.inr (.inr (.inr ⟨_, hscalar, rfl⟩))))

/-- The request word of a header (R80). -/
def Header.word : Header → ReqWord
  | .map dev addr len ptr => packWord 0 dev addr len ptr
  | .read addr cnt => packWord 1 0 addr cnt 0
  | .write addr cnt => packWord 2 0 addr cnt 0
  | .dump => packWord 3 0 0 0 0
  | .readN w addr => packWord w.readOp 0 addr 0 0
  | .writeN w addr => packWord w.writeOp 0 addr 0 0

/-- What the request word of a term says (R81). -/
def Instr.header : Instr → Header
  | .map dev addr len ptr => .map dev addr len ptr
  | .read addr cnt => .read addr cnt
  | .write addr data => .write addr (BitVec.ofNat 32 data.length)
  | .dump => .dump
  | .read8 addr => .readN .w8 addr
  | .read16 addr => .readN .w16 addr
  | .read32 addr => .readN .w32 addr
  | .read64 addr => .readN .w64 addr
  | .write8 addr _ => .writeN .w8 addr
  | .write16 addr _ => .writeN .w16 addr
  | .write32 addr _ => .writeN .w32 addr
  | .write64 addr _ => .writeN .w64 addr

/-- The data operand of a term fits its request word (R81, R86). -/
def Instr.dataFits : Instr → Bool
  | .write _ data => decide (data.length < 2 ^ 32)
  | .write8 _ dw => Width.w8.fits dw
  | .write16 _ dw => Width.w16.fits dw
  | .write32 _ dw => Width.w32.fits dw
  | .write64 _ dw => Width.w64.fits dw
  | _ => true

/-- The header of a word that passes the checks tells the whole word (D32). -/
theorem word_headerOf (hword : WordOk p q) : (headerOf q).word = q := by
  have hq := packWord_fields hword.rsv
  obtain ⟨hop, hh⟩ | ⟨hop, hh⟩ | ⟨hop, hh⟩ | ⟨hop, hh⟩ | ⟨w, hop, hh⟩ | ⟨w, hop, hh⟩ := headerOf_cases hword.op
  all_goals rw [hh, Header.word]
  · rwa [hop] at hq
  · obtain ⟨hd, hp⟩ := hword.devPtr (by rw [hop]; decide)
    rwa [hop, hd, hp] at hq
  · obtain ⟨hd, hp⟩ := hword.devPtr (by rw [hop]; decide)
    rwa [hop, hd, hp] at hq
  · obtain ⟨hd, hp⟩ := hword.devPtr (by rw [hop]; decide)
    rwa [hop, hd, hp, hword.len (by rw [hop]; decide), hword.dumpAddr hop] at hq
  · obtain ⟨hd, hp⟩ := hword.devPtr (by rw [hop]; cases w <;> decide)
    rwa [hd, hp, hword.len (by rw [hop]; cases w <;> decide), hop] at hq
  · obtain ⟨hd, hp⟩ := hword.devPtr (by rw [hop]; cases w <;> decide)
    rwa [hd, hp, hword.len (by rw [hop]; cases w <;> decide), hop] at hq

theorem word_header (i : Instr) : i.header.word = i.word := by cases i <;> rfl

@[simp] theorem opField_word (i : Instr) : opField i.word = i.opcode := by cases i <;> exact opField_packWord ..

@[simp] theorem rsvField_word (i : Instr) : rsvField i.word = 0 := by cases i <;> exact rsvField_packWord ..

theorem opcode_lt (i : Instr) : i.opcode.toNat < 0xC := by cases i <;> simp [Instr.opcode]

theorem headerOf_word (i : Instr) : headerOf i.word = i.header := by
  cases i <;> simp [headerOf, Instr.word, Instr.opcode, Instr.header, widthOfOp]

/-- Well-formed is: the address of the word is in the bus space, and the data operand fits (R50, R81, R86). -/
theorem wellFormed_iff : i.wellFormed p = true ↔
    (i.opcode ≠ 3 → (addrField i.word).toNat < p.top) ∧ i.dataFits = true := by
  cases i <;> simp [Instr.wellFormed, Instr.opcode, Instr.word, Instr.dataFits, Params.inSpace]

/-- The word of a well-formed term passes the checks. -/
theorem wordOk_word (hwf : i.wellFormed p = true) : WordOk p i.word where
  op := by rw [opField_word]; exact opcode_lt i
  rsv := rsvField_word i
  devPtr hmap := by
    cases i with
    | map => simp [Instr.word, Instr.opcode] at hmap
    | _ => simp [Instr.word]
  len hge := by
    cases i with
    | map | read | write => simp [Instr.word, Instr.opcode] at hge
    | _ => simp [Instr.word]
  dumpAddr hdump := by
    cases i with
    | dump => simp [Instr.word]
    | _ => simp [Instr.word, Instr.opcode] at hdump
  range hdump := (wellFormed_iff.1 hwf).1 (by rwa [opField_word] at hdump)

/-! ## The data operand (R81) -/

theorem takeData_header (hfits : i.dataFits = true) : takeData i.header i.portData = .ok i := by
  cases i with
  | write addr data =>
    have hlen : data.length = (BitVec.ofNat 32 data.length).toNat :=
      (Nat.mod_eq_of_lt (of_decide_eq_true hfits)).symm
    exact if_pos hlen
  | write8 | write16 | write32 | write64 => exact if_pos hfits
  | _ => rfl

theorem noData_eq_ok (hok : noData d i = .ok j) : d = .none ∧ j = i := by
  cases d with
  | none => exact ⟨rfl, (Except.ok.inj hok).symm⟩
  | bytes | word => cases hok

/-- A header and a data operand that give a term are that term's own. -/
theorem takeData_eq_ok (hok : takeData h d = .ok i) : i.header = h ∧ i.portData = d ∧ i.dataFits = true := by
  cases h with
  | map | read | dump =>
    obtain ⟨rfl, rfl⟩ := noData_eq_ok hok
    exact ⟨rfl, rfl, rfl⟩
  | readN w addr =>
    obtain ⟨rfl, rfl⟩ := noData_eq_ok hok
    cases w <;> exact ⟨rfl, rfl, rfl⟩
  | write addr cnt =>
    cases d with
    | none | word => cases hok
    | bytes data =>
      simp only [takeData] at hok
      split_ifs at hok with hlen
      cases hok
      exact ⟨by rw [Instr.header, hlen, BitVec.ofNat_toNat, BitVec.setWidth_eq], rfl,
        decide_eq_true (hlen ▸ cnt.isLt)⟩
  | writeN w addr =>
    cases d with
    | none | bytes => cases hok
    | word dw =>
      simp only [takeData] at hok
      split_ifs at hok with hfits
      cases hok
      cases w <;> exact ⟨rfl, rfl, hfits⟩

/-- A term taken from a word that passes the checks has that word. -/
theorem word_of_takeData (hword : WordOk p q) (hok : takeData (headerOf q) d = .ok i) : i.word = q := by
  rw [← word_header, (takeData_eq_ok hok).1, word_headerOf hword]

/-- What the decoder answers on a request (R81, R82). -/
theorem decode_eq_ok_iff {r : Request} :
    decode p r = .ok i ↔ WordOk p r.word ∧ takeData (headerOf r.word) r.data = .ok i := by
  rw [decode]
  cases hdec : decodeWord p r.word with
  | error e =>
    refine iff_of_false (by nofun) fun ⟨hword, _⟩ => ?_
    rw [decodeWord_eq_ok_iff.2 ⟨hword, rfl⟩] at hdec
    cases hdec
  | ok h =>
    obtain ⟨hword, rfl⟩ := decodeWord_eq_ok_iff.1 hdec
    exact (and_iff_right hword).symm

end

/-! ## The rows of the opcode table (R85) -/

section
variable {p : Params} {q : ReqWord} {i : Instr}

/-- Bits that a row's mask fixes are those of its pattern. -/
theorem field_eq_of_mask {n lsb : Nat} {a m b : ReqWord} (h : a &&& m = b)
    (hm : m.extractLsb' lsb n = BitVec.allOnes n) : a.extractLsb' lsb n = b.extractLsb' lsb n := by
  rw [← h, BitVec.extractLsb'_and, hm, BitVec.and_allOnes]

theorem opField_of_row (h : q &&& i.mask = i.pattern) : opField q = i.opcode := by
  have hfixed : i.mask.extractLsb' 124 4 = BitVec.allOnes 4 := by
    cases i <;> simp only [Instr.mask] <;> decide
  have hfield : opField q = opField i.pattern := field_eq_of_mask h hfixed
  rw [hfield, Instr.pattern, opField_packWord]

theorem rsvField_of_row (h : q &&& i.mask = i.pattern) : rsvField q = 0 := by
  have hfixed : i.mask.extractLsb' 112 12 = BitVec.allOnes 12 := by
    cases i <;> simp only [Instr.mask] <;> decide
  have hfield : rsvField q = rsvField i.pattern := field_eq_of_mask h hfixed
  rw [hfield, Instr.pattern, rsvField_packWord]

/-- Every row but `MAP` fixes the identity and the store address. -/
theorem devField_of_row (h : q &&& i.mask = i.pattern) (hmap : i.opcode ≠ 0) : devField q = 0 := by
  have hfixed : i.mask.extractLsb' 96 16 = BitVec.allOnes 16 := by
    cases i with
    | map => exact absurd rfl hmap
    | _ => simp only [Instr.mask]; decide
  have hfield : devField q = devField i.pattern := field_eq_of_mask h hfixed
  rw [hfield, Instr.pattern, devField_packWord]

theorem ptrField_of_row (h : q &&& i.mask = i.pattern) (hmap : i.opcode ≠ 0) : ptrField q = 0 := by
  have hfixed : i.mask.extractLsb' 0 32 = BitVec.allOnes 32 := by
    cases i with
    | map => exact absurd rfl hmap
    | _ => simp only [Instr.mask]; decide
  have hfield : ptrField q = ptrField i.pattern := field_eq_of_mask h hfixed
  rw [hfield, Instr.pattern, ptrField_packWord]

/-- Every row from `DUMP` on fixes the length. -/
theorem lenField_of_row (h : q &&& i.mask = i.pattern) (hge : 3 ≤ i.opcode.toNat) : lenField q = 0 := by
  have hfixed : i.mask.extractLsb' 32 32 = BitVec.allOnes 32 := by
    cases i with
    | map | read | write => simp [Instr.opcode] at hge
    | _ => simp only [Instr.mask]; decide
  have hfield : lenField q = lenField i.pattern := field_eq_of_mask h hfixed
  rw [hfield, Instr.pattern, lenField_packWord]

/-- `DUMP` fixes the address. -/
theorem addrField_of_row (h : q &&& i.mask = i.pattern) (hdump : i.opcode = 3) : addrField q = 0 := by
  have hfixed : i.mask.extractLsb' 64 32 = BitVec.allOnes 32 := by
    cases i with
    | dump => simp only [Instr.mask]; decide
    | _ => simp [Instr.opcode] at hdump
  have hfield : addrField q = addrField i.pattern := field_eq_of_mask h hfixed
  rw [hfield, Instr.pattern, addrField_packWord]

/-- A word of a row, with an address in the bus space, passes the checks of the decoder. -/
theorem wordOk_of_row (h : q &&& i.mask = i.pattern) (haddr : (addrField q).toNat < p.top) : WordOk p q where
  op := by rw [opField_of_row h]; exact opcode_lt i
  rsv := rsvField_of_row h
  devPtr hmap := by
    rw [opField_of_row h] at hmap
    exact ⟨devField_of_row h hmap, ptrField_of_row h hmap⟩
  len hge := lenField_of_row h (by rwa [opField_of_row h] at hge)
  dumpAddr hdump := addrField_of_row h (by rwa [opField_of_row h] at hdump)
  range _ := haddr

/-- The word of a term is a word of its row. -/
theorem word_row : ∀ i : Instr, i.word &&& i.mask = i.pattern
  | .map dev addr len ptr => Laws.RowMatch.map dev addr len ptr
  | .read addr cnt => Laws.RowMatch.read addr cnt
  | .write addr data => Laws.RowMatch.write addr data
  | .dump => Laws.RowMatch.dump
  | .read8 addr => Laws.RowMatch.read8 addr
  | .read16 addr => Laws.RowMatch.read16 addr
  | .read32 addr => Laws.RowMatch.read32 addr
  | .read64 addr => Laws.RowMatch.read64 addr
  | .write8 addr dw => Laws.RowMatch.write8 addr dw
  | .write16 addr dw => Laws.RowMatch.write16 addr dw
  | .write32 addr dw => Laws.RowMatch.write32 addr dw
  | .write64 addr dw => Laws.RowMatch.write64 addr dw

end

/-! ## The statements -/

/-- Settles O1: the word of the term passes the checks and gives its header, and the header takes its data operand. -/
theorem decodeEncodeRoundTrip : Obligations.DecodeEncodeRoundTrip := by
  intro p i hwf
  have hdata : takeData (headerOf i.word) i.portData = .ok i := by
    rw [headerOf_word]
    exact takeData_header (wellFormed_iff.1 hwf).2
  exact decode_eq_ok_iff.2 ⟨wordOk_word hwf, hdata⟩

/-- A request that is the encoding of a well-formed term decodes to it. -/
theorem decode_of_encode {p : Params} {r : Request} {i : Instr} (hr : encode i = r) (hwf : i.wellFormed p = true) :
    decode p r = .ok i :=
  hr ▸ decodeEncodeRoundTrip p i hwf

/-- Settles O2: the header tells the whole word, and the data operand taken is the term's own. -/
theorem decodedHasOneEncoding : Obligations.DecodedHasOneEncoding := by
  intro p ⟨q, d⟩ i hdec
  obtain ⟨hword, htake⟩ := decode_eq_ok_iff.1 hdec
  have hq : i.word = q := word_of_takeData hword htake
  obtain ⟨-, hport, hfits⟩ := takeData_eq_ok htake
  refine ⟨wellFormed_iff.2 ⟨fun hdump => ?_, hfits⟩, by rw [encode, hq, hport]⟩
  rw [hq]
  exact hword.range (by rwa [← hq, opField_word])

/-- Settles O3: the bits that a row fixes are those the decoder checks. -/
theorem rowMatchDecides : Obligations.RowMatchDecides := by
  intro p q i hrow haddr
  have hword : WordOk p q := wordOk_of_row hrow haddr
  have hop : opField q = i.opcode := opField_of_row hrow
  refine ⟨headerOf q, decodeWord_eq_ok_iff.2 ⟨hword, rfl⟩, hop, fun d j htake => ?_⟩
  have hj : j.word = q := word_of_takeData hword htake
  exact ⟨by rw [← opField_word, hj, hop], hj⟩

/-- Settles O4: the request's word is its term's, and every row that it matches fixes the opcode. -/
theorem exactlyOneRowMatches : Obligations.ExactlyOneRowMatches := by
  intro p r i j hdec
  obtain ⟨hword, htake⟩ := decode_eq_ok_iff.1 hdec
  have hi : i.word = r.word := word_of_takeData hword htake
  rw [← hi]
  exact ⟨word_row i, fun hrow => by rw [← opField_of_row hrow, opField_word]⟩

/-- Settles O6: each term is decoded from its own encoding, and each refusal is that of the check named. -/
theorem specWordsDecode : Obligations.SpecWordsDecode := by
  refine ⟨decode_of_encode ?_ ?_, decode_of_encode ?_ ?_, decode_of_encode ?_ ?_, decode_of_encode ?_ ?_,
    decode_of_encode ?_ ?_, decode_of_encode ?_ ?_, decode_of_encode ?_ ?_, rfl, rfl, rfl, rfl⟩
  all_goals decide

end Sys2Proof
end

section
/-! SUPPORT. What every request, every phase and every step can do, in any state: the ten transfers as one equation (R130),
the phases as one relation (R135), what each keeps (R136, R144, R200), and the statements about them. -/

namespace Sys2Proof.Machine

/-! ## The port (R206) -/

section
variable {s t : State} {o : Host.Outcome State Fault Refusal}

theorem whenIdle_busy (h : s.fsm ≠ .idle) : whenIdle s o = .refused .concurrentRequest :=
  if_neg (mt (isIdle_iff _).1 h)

theorem acceptAt_busy {a : Field} (h : s.fsm ≠ .idle) : acceptAt s a o = .refused .concurrentRequest :=
  whenIdle_busy h

/-! ## What the port brings (R66, R198, R206) -/

section
variable {rest : List Arrival} {b : Bool} {r : Request}

theorem fetch_request_ok {i : Instr} (hin : s.input = ⟨.request r, b⟩ :: rest) (hdec : decode s.params r = .ok i) :
    fetch s = if overlapsNext rest then .stop .concurrentRequest else .request i { s with input := rest } := by
  simp only [fetch, hin, hdec]

theorem fetch_request_error {e : DecodeError} (hin : s.input = ⟨.request r, b⟩ :: rest)
    (hdec : decode s.params r = .error e) : fetch s = .stop (refusalOf e) := by
  simp only [fetch, hin, hdec]

theorem fetch_update {sa : Nat} {bs : List Byte} (hin : s.input = ⟨.update sa bs, b⟩ :: rest) :
    fetch s = if overlapsNext rest then .stop .concurrentRequest else .update sa bs { s with input := rest } := by
  simp only [fetch, hin]

variable (hrefused : s.refused = false) (hended : s.ended = false)
include hrefused hended

/-- A machine that has not stopped refuses what the port refuses. -/
theorem step_of_stop {e : Refusal} (hfetch : fetch s = .stop e) : step s = .refused e := by
  simp [step, hrefused, hended, hfetch]

theorem step_request_error {e : DecodeError} (hin : s.input = ⟨.request r, b⟩ :: rest)
    (hdec : decode s.params r = .error e) : step s = .refused (refusalOf e) :=
  step_of_stop hrefused hended (fetch_request_error hin hdec)

theorem step_request {i : Instr} (hin : s.input = ⟨.request r, b⟩ :: rest) (hdec : decode s.params r = .ok i)
    (hnext : overlapsNext rest = false) : step s = exec i { s with input := rest } := by
  simp [step, hrefused, hended, fetch_request_ok hin hdec, hnext]

theorem step_request_overlapped {i : Instr} (hin : s.input = ⟨.request r, b⟩ :: rest)
    (hdec : decode s.params r = .ok i) (hnext : overlapsNext rest = true) : step s = .refused .concurrentRequest :=
  step_of_stop hrefused hended (by rw [fetch_request_ok hin hdec, if_pos hnext])

theorem step_update {sa : Nat} {bs : List Byte} (hin : s.input = ⟨.update sa bs, b⟩ :: rest)
    (hnext : overlapsNext rest = false) : step s = deviceUpdate sa bs { s with input := rest } := by
  simp [step, hrefused, hended, fetch_update hin, hnext]

theorem step_update_overlapped {sa : Nat} {bs : List Byte} (hin : s.input = ⟨.update sa bs, b⟩ :: rest)
    (hnext : overlapsNext rest = true) : step s = .refused .concurrentRequest :=
  step_of_stop hrefused hended (by rw [fetch_update hin, if_pos hnext])

end

/-- In a system that the notifier has ended a step of an unmarked state stops (R239). -/
theorem step_ended (hrefused : s.refused = false) (hended : s.ended = true) : step s = .fault .systemEnded := by
  simp [step, hrefused, hended]

theorem step_marked (hrefused : s.refused = true) : step s = .refused .alreadyRefused := by
  simp [step, hrefused]

end

/-! ## The ten transfers as one equation (R130, R160) -/

/-- The address operand; 0 for `DUMP`, which has none (R80). -/
def startField : Instr → Field
  | .map _ a _ _ | .read a _ | .write a _ => a
  | .dump => 0
  | .read8 a | .read16 a | .read32 a | .read64 a => a
  | .write8 a _ | .write16 a _ | .write32 a _ | .write64 a _ => a

/-- The data word of a scalar write has no bit above its value (R166). -/
def valueFits : Instr → Bool
  | .write8 _ dw => Width.w8.fits dw
  | .write16 _ dw => Width.w16.fits dw
  | .write32 _ dw => Width.w32.fits dw
  | .write64 _ dw => Width.w64.fits dw
  | _ => true

/-- What a transfer's `DONE` is to send (R87, R135). -/
def wantOf : Instr → Want
  | .read _ _ => .bytes
  | .read8 _ => .value .w8
  | .read16 _ => .value .w16
  | .read32 _ => .value .w32
  | .read64 _ => .value .w64
  | _ => .completion

/-- The run of the engine that a request asks for (R130). -/
def transferOf (i : Instr) (s : State) : Host.Outcome State Fault Refusal :=
  transfer (accessKindOf i) (moveRange i).1 (moveRange i).2 (dataOf s.params.scalarOrder i) (wantOf i) s

section
variable {s t : State} {i : Instr}

theorem startField_toNat (hi : isTransfer i = true) : (startField i).toNat = (moveRange i).1 := by
  cases i with
  | map | dump => cases hi
  | _ => rfl

/-- "One engine performs every byte-range transfer" (R130), behind the port and the check of a scalar write's value. -/
theorem exec_eq_transferOf (hi : isTransfer i = true) (s : State) :
    exec i s = acceptAt s (startField i) (if valueFits i then transferOf i s else .refused .reservedField) := by
  cases i with
  | map | dump => cases hi
  | _ => rfl

/-- Only a write sends bytes. -/
theorem dataOf_of_not_write (hw : isWrite i = false) (o : ScalarOrder) : dataOf o i = [] := by
  cases i with
  | write | write8 | write16 | write32 | write64 => cases hw
  | _ => rfl

theorem accessKindOf_read (hw : isWrite i = false) : accessKindOf i = .read := by
  rw [accessKindOf, hw]
  rfl

theorem accessKindOf_write (hw : isWrite i = true) : accessKindOf i = .write := by
  rw [accessKindOf, hw]
  rfl

theorem wantOf_ne_value (hi : ∀ w a, i ≠ .readN w a) (w : Width) : wantOf i ≠ .value w := by
  cases i with
  | read8 a => exact absurd rfl (hi .w8 a)
  | read16 a => exact absurd rfl (hi .w16 a)
  | read32 a => exact absurd rfl (hi .w32 a)
  | read64 a => exact absurd rfl (hi .w64 a)
  | _ => exact Want.noConfusion

theorem valueFits_of_wellFormed {p : Params} (hwf : i.wellFormed p = true) : valueFits i = true := by
  cases i with
  | write8 | write16 | write32 | write64 => exact (Bool.and_eq_true_iff.1 hwf).2
  | _ => rfl

/-- A request that the port lets through is its run of the engine. -/
theorem exec_of_accepted (hidle : s.fsm = .idle) (hi : isTransfer i = true) (hstart : (moveRange i).1 < s.params.top)
    (hfits : valueFits i = true) : exec i s = transferOf i s := by
  rw [exec_eq_transferOf hi, acceptAt_ok hidle (by rwa [startField_toNat hi]), if_pos hfits]

/-- A transfer is refused before its first phase, or it is its run of the engine. -/
theorem exec_refused_or_accepted (hi : isTransfer i = true) (s : State) :
    (∃ r, exec i s = .refused r) ∨
    (s.fsm = .idle ∧ (moveRange i).1 < s.params.top ∧ valueFits i = true ∧ exec i s = transferOf i s) := by
  rw [exec_eq_transferOf hi]
  by_cases hidle : s.fsm = .idle
  · by_cases hstart : (startField i).toNat < s.params.top
    · rw [acceptAt_ok hidle hstart]
      rw [startField_toNat hi] at hstart
      cases hfits : valueFits i with
      | true => exact .inr ⟨hidle, hstart, rfl, rfl⟩
      | false => exact .inl ⟨_, rfl⟩
    · exact .inl ⟨.addressRange, by simp [acceptAt, whenIdle_idle hidle, Params.inSpace, hstart]⟩
  · exact .inl ⟨_, acceptAt_busy hidle⟩

/-- All that a request can be where it answers a next state. -/
theorem exec_eq_next (h : exec i s = .next t) :
    (∃ dev addr len ptr, i = .map dev addr len ptr ∧ execMap dev addr len ptr s = .next t) ∨
    (i = .dump ∧ s.fsm = .idle ∧ t = s.respond (.records (dumpRecords s.pt))) ∨
    (isTransfer i = true ∧ s.fsm = .idle ∧ (moveRange i).1 < s.params.top ∧ valueFits i = true ∧
      transferOf i s = .next t) := by
  by_cases hi : isTransfer i = true
  · obtain ⟨r, hr⟩ | ⟨hidle, hstart, hfits, hexec⟩ := exec_refused_or_accepted hi s
    · cases h.symm.trans hr
    · exact .inr (.inr ⟨hi, hidle, hstart, hfits, hexec.symm.trans h⟩)
  · cases i with
    | map dev addr len ptr => exact .inl ⟨dev, addr, len, ptr, rfl, h⟩
    | dump => exact .inr (.inl ⟨rfl, execDump_eq_next h⟩)
    | _ => exact absurd rfl hi

end

/-! ## The phases as one relation (R135) -/

/-- All that one phase can do where it answers a next state (R135). -/
inductive Phase (s : State) : State → Prop
  | finish (x : Xfer) (hf : s.fsm = .lookup x) (hrem : x.rem = 0) : Phase s { s with fsm := .done x }
  | hit (x : Xfer) (e : Entry) (sa : Nat) (hf : s.fsm = .lookup x) (hrem : x.rem ≠ 0) (hcur : x.cur < s.params.top)
      (hhit : xlate s.params s.pt x.cur = .hit e sa) : Phase s { s with fsm := .copy x (chunkLen e x) sa }
  | fault (x : Xfer) (b : Bool) (hf : s.fsm = .lookup x) (hcur : x.cur < s.params.top)
      (hended : s.ended = true → b = true) :
      Phase s { s with
        trace := s.trace ++ [⟨(xlate s.params s.pt x.cur).faultAddr x.cur, x.dir⟩], fsm := .done x, ended := b }
  | copyRead (x : Xfer) (c sa : Nat) (hf : s.fsm = .copy x c sa) (hdir : x.dir = .read) :
      Phase s { s with
        fsm := .lookup { x.advance c with moved := x.moved ++ Memory.readBytes s.params.store0 s.store sa c } }
  | copyWrite (x : Xfer) (c sa : Nat) (hf : s.fsm = .copy x c sa) (hdir : x.dir = .write)
      (hstore : sa + c ≤ s.params.storeSize) :
      Phase s { s with
        store := Memory.writeBytes s.params.store0 s.store sa ((x.data.drop x.done).take c)
        fsm := .lookup (x.advance c) }
  | done (x : Xfer) (hf : s.fsm = .done x) : Phase s (doneStep s x)

theorem phase_of_fsmStep {s t : State} (h : fsmStep s = .next t) : Phase s t := by
  unfold fsmStep at h
  split at h
  · cases h
  · rename_i x hf
    obtain ⟨hrem, rfl⟩ | ⟨e, sa, hrem, hcur, hhit, rfl⟩ | ⟨-, hcur, -, hraise⟩ := lookupStep_eq_next h
    · exact .finish x hf hrem
    · exact .hit x e sa hf hrem hcur hhit
    · obtain ⟨ht, hended⟩ := raiseAccessFault_eq_next hraise
      rw [ht]
      refine .fault x t.ended hf hcur fun hs => ?_
      obtain ⟨-, he⟩ | ⟨-, he⟩ := hended
      · rw [he, hs]
      · exact he
  · rename_i x c sa hf
    obtain ⟨hstore, ⟨hdir, rfl⟩ | ⟨hdir, rfl⟩⟩ := copyStep_eq_next h
    · exact .copyRead x c sa hf hdir
    · exact .copyWrite x c sa hf hdir hstore
  · rename_i x hf
    cases h
    exact .done x hf

/-- A relation that every phase keeps holds from the start of a transfer to its end. -/
theorem transfer_induct {s t : State} {dir : AccessKind} {start cnt : Nat} {data : List Byte} {want : Want}
    {R : State → State → Prop} (hrefl : ∀ u, R u u) (htrans : ∀ u v w, R u v → R v w → R u w)
    (hphase : ∀ u v, Phase u v → R u v) (h : transfer dir start cnt data want s = .next t) :
    R (startTransfer s dir start cnt data want) t :=
  (runFsm_induct hrefl htrans (fun u v huv => hphase u v (phase_of_fsmStep huv)) h).1

/-! ## What `DONE` sends (R87, R201) -/

/-- `DONE` sends one response at most. -/
theorem doneStep_responses (s : State) (x : Xfer) : s.responses <+: (doneStep s x).responses := by
  unfold doneStep
  split
  · exact List.prefix_rfl
  · cases x.want <;> exact List.prefix_append ..

/-- Only the `DONE` of a scalar read draws (R162, R164). -/
theorem doneStep_drawCount {x : Xfer} (hwant : ∀ w, x.want ≠ .value w) (s : State) :
    (doneStep s x).drawCount = s.drawCount := by
  unfold doneStep
  split
  · rfl
  · cases hw : x.want with
    | value w => exact absurd hw (hwant w)
    | bytes | completion => rfl

/-! ## What the phases keep -/

/-- The working registers, in whatever phase (R30). -/
def Fsm.xfer : Fsm → Option Xfer
  | .idle => none
  | .lookup x => some x
  | .copy x _ _ => some x
  | .done x => some x

/-- What the history only does: grow (R34). -/
def Grows (u v : State) : Prop := u.trace <+: v.trace ∧ u.responses <+: v.responses

theorem Grows.refl (u : State) : Grows u u := ⟨List.prefix_rfl, List.prefix_rfl⟩

theorem Grows.trans {u v w : State} (h : Grows u v) (h' : Grows v w) : Grows u w :=
  ⟨h.1.trans h'.1, h.2.trans h'.2⟩

theorem Phase.grows {u v : State} (h : Phase u v) : Grows u v := by
  cases h with
  | finish | hit | copyRead | copyWrite => exact Grows.refl u
  | fault => exact ⟨List.prefix_append .., List.prefix_rfl⟩
  | done x => exact ⟨by rw [doneStep_trace], doneStep_responses u x⟩

/-- What the engine does not change in a transfer of kind `dir` that is to send `want`: the kind itself, the store unless
it writes (R140), and the count of draws unless it is a scalar read's (R162). -/
def KeepsKind (dir : AccessKind) (want : Want) (u v : State) : Prop :=
  (∀ x ∈ u.fsm.xfer, x.dir = dir ∧ x.want = want) →
    (∀ x ∈ v.fsm.xfer, x.dir = dir ∧ x.want = want) ∧ (dir = .read → v.store = u.store) ∧
      ((∀ w, want ≠ .value w) → v.drawCount = u.drawCount)

theorem Phase.keepsKind {u v : State} (dir : AccessKind) (want : Want) (h : Phase u v) : KeepsKind dir want u v := by
  intro hkind
  cases h with
  | finish x hf | hit x e sa hf | fault x b hf =>
    rw [hf] at hkind
    exact ⟨hkind, fun _ => rfl, fun _ => rfl⟩
  | copyRead x c sa hf =>
    rw [hf] at hkind
    refine ⟨fun y hy => ?_, fun _ => rfl, fun _ => rfl⟩
    cases hy
    exact hkind x rfl
  | copyWrite x c sa hf hdir =>
    rw [hf] at hkind
    refine ⟨fun y hy => ?_, fun hread => ?_, fun _ => rfl⟩
    · cases hy
      exact hkind x rfl
    · rw [(hkind x rfl).1, hread] at hdir
      cases hdir
  | done x hf =>
    rw [hf] at hkind
    refine ⟨fun y hy => ?_, fun _ => doneStep_store u x, fun hwant => ?_⟩
    · rw [doneStep_fsm] at hy
      cases hy
    · refine doneStep_drawCount (fun w hw => hwant w ?_) u
      rw [← (hkind x rfl).2, hw]

section
variable {s t : State} {dir : AccessKind} {start cnt : Nat} {data : List Byte} {want : Want}
  (h : transfer dir start cnt data want s = .next t)
include h

theorem transfer_grows : Grows s t :=
  (transfer_induct (R := Grows) Grows.refl (fun _ _ _ => Grows.trans) (fun _ _ => Phase.grows) h :)

theorem transfer_keepsKind :
    (dir = .read → t.store = s.store) ∧ ((∀ w, want ≠ .value w) → t.drawCount = s.drawCount) := by
  have hrun : KeepsKind dir want (startTransfer s dir start cnt data want) t :=
    transfer_induct (fun u hu => ⟨hu, fun _ => rfl, fun _ => rfl⟩)
      (fun u v w huv hvw hu =>
        have ⟨hv, hstore, hdraws⟩ := huv hu
        have ⟨hw, hstore', hdraws'⟩ := hvw hv
        ⟨hw, fun hd => (hstore' hd).trans (hstore hd), fun hd => (hdraws' hd).trans (hdraws hd)⟩)
      (fun _ _ => Phase.keepsKind dir want) h
  refine (hrun fun x hx => ?_).2
  cases hx
  exact ⟨rfl, rfl⟩

end

/-- A request only appends to the history. -/
theorem exec_grows {i : Instr} {s t : State} (h : exec i s = .next t) : Grows s t := by
  obtain ⟨dev, addr, len, ptr, -, hmap⟩ | ⟨-, -, rfl⟩ | ⟨-, -, -, -, hrun⟩ := exec_eq_next h
  · obtain ⟨-, -, -, -, -, ⟨-, rfl⟩ | ⟨-, rfl⟩⟩ := execMap_eq_next hmap
    · exact ⟨List.prefix_rfl, List.prefix_append ..⟩
    · exact ⟨List.prefix_rfl, List.prefix_append ..⟩
  · exact ⟨List.prefix_rfl, List.prefix_append ..⟩
  · exact transfer_grows hrun

/-! ## The registers of a transfer in progress (R136) -/

/-- How many phases a transfer whose registers agree takes at most from here to `IDLE` (R136). -/
def Fsm.phasesLeft : Fsm → Nat
  | .idle => 0
  | .lookup x => 2 * x.rem + 2
  | .copy x c _ => 2 * (x.rem - c) + 3
  | .done _ => 1

section
variable {s t : State}

theorem agrees_lookup_iff {x : Xfer} :
    (Fsm.lookup x).agrees = true ↔ x.done + x.rem = x.cnt ∧ x.cur = x.start + x.done := by
  simp [Fsm.agrees]

theorem agrees_done_iff {x : Xfer} :
    (Fsm.done x).agrees = true ↔ x.done + x.rem = x.cnt ∧ x.cur = x.start + x.done := by
  simp [Fsm.agrees]

theorem agrees_copy_iff {x : Xfer} {c sa : Nat} : (Fsm.copy x c sa).agrees = true ↔
    (x.done + x.rem = x.cnt ∧ x.cur = x.start + x.done) ∧ 1 ≤ c ∧ c ≤ x.rem := by
  simp [Fsm.agrees, and_assoc]

/-- A chunk within what is left keeps the registers in agreement (R134). -/
theorem agrees_advance {x : Xfer} {c : Nat} (h : x.done + x.rem = x.cnt ∧ x.cur = x.start + x.done) (hc : c ≤ x.rem) :
    (x.advance c).done + (x.advance c).rem = (x.advance c).cnt ∧
      (x.advance c).cur = (x.advance c).start + (x.advance c).done := by
  simp only [Xfer.advance]
  omega

theorem Phase.agrees (hs : s.fsm.agrees = true) (h : Phase s t) : t.fsm.agrees = true := by
  cases h with
  | finish x hf | fault x b hf =>
    rw [hf, agrees_lookup_iff] at hs
    exact agrees_done_iff.2 hs
  | hit x e sa hf hrem hcur hhit =>
    rw [hf, agrees_lookup_iff] at hs
    exact agrees_copy_iff.2 ⟨hs, chunkLen_pos hrem hhit, chunkLen_le_rem⟩
  | copyRead x c sa hf | copyWrite x c sa hf =>
    rw [hf, agrees_copy_iff] at hs
    exact agrees_lookup_iff.2 (agrees_advance hs.1 hs.2.2)
  | done x =>
    rw [doneStep_fsm]
    rfl

/-- Every phase brings the transfer nearer to `IDLE` (R136). -/
theorem Phase.phasesLeft_lt (h : Phase s t) : t.fsm.phasesLeft < s.fsm.phasesLeft := by
  cases h with
  | finish x hf | fault x b hf => rw [hf]; simp only [Fsm.phasesLeft]; omega
  | hit x e sa hf hrem hcur hhit =>
    have hpos : 0 < chunkLen e x := chunkLen_pos hrem hhit
    have hle : chunkLen e x ≤ x.rem := chunkLen_le_rem
    rw [hf]
    simp only [Fsm.phasesLeft]
    omega
  | copyRead x c sa hf | copyWrite x c sa hf =>
    rw [hf]
    simp only [Fsm.phasesLeft, Xfer.advance]
    omega
  | done x hf => rw [hf, doneStep_fsm]; exact Nat.zero_lt_one

/-- A phase that faults is a copy outside the store, or there is no transfer in progress (R30, R33). -/
theorem fsmStep_eq_fault {f : Fault} (hbusy : s.fsm ≠ .idle) (h : fsmStep s = .fault f) : f = .outsideStore := by
  unfold fsmStep at h
  split at h
  · exact absurd ‹_› hbusy
  · unfold lookupStep at h
    split_ifs at h
    split at h
    · cases h
    · exact absurd h raiseAccessFault_not_fault
  · unfold copyStep at h
    split_ifs at h
    · cases h; rfl
    · split at h <;> cases h
  · cases h

/-- A run with as many phases as it needs can fault in no other way. -/
theorem runFsm_eq_fault {n : Nat} {f : Fault} (hs : s.fsm.agrees = true) (hn : s.fsm.phasesLeft ≤ n)
    (h : runFsm n s = .fault f) : f = .outsideStore := by
  induction n generalizing s with
  | zero =>
    have hidle : s.fsm = .idle := by
      cases hf : s.fsm with
      | idle => rfl
      | _ => rw [hf] at hn; simp [Fsm.phasesLeft] at hn
    rw [runFsm_idle hidle] at h
    cases h
  | succ n ih =>
    by_cases hidle : s.fsm = .idle
    · rw [runFsm_idle hidle] at h
      cases h
    · rw [runFsm_succ hidle] at h
      split at h
      next u hu =>
        have hphase := phase_of_fsmStep hu
        have hlt := hphase.phasesLeft_lt
        exact ih (hphase.agrees hs) (by omega) h
      next g hg =>
        cases h
        exact fsmStep_eq_fault hidle hg
      next => cases h

theorem transfer_eq_fault {dir : AccessKind} {start cnt : Nat} {data : List Byte} {want : Want} {f : Fault}
    (h : transfer dir start cnt data want s = .fault f) : f = .outsideStore :=
  runFsm_eq_fault (s := startTransfer s dir start cnt data want) (agrees_lookup_iff.2 ⟨Nat.zero_add cnt, rfl⟩) le_rfl h

/-- A request faults in no other way, in any state (R136). -/
theorem exec_eq_fault {i : Instr} {f : Fault} (h : exec i s = .fault f) : f = .outsideStore ∧ isTransfer i = true := by
  by_cases hi : isTransfer i = true
  · obtain ⟨r, hr⟩ | ⟨-, -, -, hexec⟩ := exec_refused_or_accepted hi s
    · cases h.symm.trans hr
    · exact ⟨transfer_eq_fault (hexec.symm.trans h), hi⟩
  · cases i with
    | map dev addr len ptr =>
      rw [exec_map, execMap, acceptAt, whenIdle] at h
      split_ifs at h
    | dump =>
      rw [exec_dump, execDump, whenIdle] at h
      split_ifs at h
    | _ => exact absurd rfl hi

end

/-! ## The statements -/

/-- Settles O7: one equation of the step for a request that decodes, and one for a request that does not. -/
theorem stepRunsDecodedRequest : Obligations.StepRunsDecodedRequest := by
  intro s r b rest hrefused hended hin
  exact ⟨fun i hnext hdec => step_request hrefused hended hin hdec hnext, step_request_error hrefused hended hin,
    step_request_error hrefused hended hin, step_request_error hrefused hended hin, step_request_error hrefused hended hin⟩

/-- Settles O8: the port refuses whatever comes during a transfer, and an arrival that the next one overlaps. -/
theorem concurrentRequestRefused : Obligations.ConcurrentRequestRefused := by
  intro s
  refine ⟨fun i hbusy => ?_, fun sa bs hbusy => whenIdle_busy hbusy, fun a rest hrefused hended hin hnext hdec => ?_⟩
  · cases i with
    | dump => exact whenIdle_busy hbusy
    | _ => exact acceptAt_busy hbusy
  · obtain ⟨inp, b⟩ := a
    cases inp with
    | update sa bs => exact step_update_overlapped hrefused hended hin hnext
    | request r =>
      obtain ⟨i, hi⟩ := hdec r rfl
      exact step_request_overlapped hrefused hended hin hi hnext

/-- Settles O9: what is observed of a refusal is the marked state. -/
theorem refusalLeavesNoSuccessor : Obligations.RefusalLeavesNoSuccessor := by
  intro s r h
  have hmark : observe s (step s) = markRefused s := by rw [h, observe]
  rw [hmark]
  exact ⟨markRefused_refused s, fun t ht => (nomatch h.symm.trans ht),
    step_marked (markRefused_refused s)⟩

/-- Settles O24: the registers agree again after every phase, and only a `COPY` moves the cursor, by its chunk. -/
theorem cursorOnlyIncreases : Obligations.CursorOnlyIncreases := by
  intro s t hs hstep
  have hphase := phase_of_fsmStep hstep
  refine ⟨hphase.agrees hs, fun c c' hc hc' => ?_, fun x chunk sptr hcopy => ?_⟩
  · cases hphase with
    | finish x hf | hit x e sa hf | fault x b hf =>
      rw [hf] at hc
      exact (Option.some.inj (hc.symm.trans hc')).le
    | copyRead x n sa hf | copyWrite x n sa hf =>
      rw [hf] at hc
      cases hc
      cases hc'
      exact Nat.le_add_right _ _
    | done x =>
      rw [doneStep_fsm] at hc'
      cases hc'
  · have hpos : 1 ≤ chunk := (agrees_copy_iff.1 (hcopy ▸ hs)).2.1
    cases hphase with
    | finish x hf | hit x e sa hf | fault x b hf | done x hf => cases hcopy.symm.trans hf
    | copyRead x n sa hf | copyWrite x n sa hf =>
      cases hcopy.symm.trans hf
      exact ⟨rfl, hpos⟩

/-- Settles O25: a request can fault only by a copy outside the store. -/
theorem transfersNeverHang : Obligations.TransfersNeverHang := by
  intro i s
  exact ⟨fun h => (nomatch (exec_eq_fault h).1), fun h => (nomatch (exec_eq_fault h).1)⟩

/-- Settles O40: `MAP` writes the table, `DUMP` only answers, and a transfer keeps what its kind does not name. -/
theorem frameOfEveryRequest : Obligations.FrameOfEveryRequest := by
  intro i s t h
  obtain ⟨dev, addr, len, ptr, rfl, hmap⟩ | ⟨rfl, hidle, rfl⟩ | ⟨hi, -, -, -, hrun⟩ := exec_eq_next h
  · obtain ⟨hidle, -, -, -, -, ⟨-, rfl⟩ | ⟨-, rfl⟩⟩ := execMap_eq_next hmap
    · exact ⟨rfl, rfl, rfl, hidle, fun hne => absurd rfl (hne dev addr len ptr), fun _ => rfl, fun _ => ⟨rfl, rfl⟩,
        fun _ => rfl⟩
    · exact ⟨rfl, rfl, rfl, hidle, fun _ => rfl, fun _ => rfl, fun _ => ⟨rfl, rfl⟩, fun _ => rfl⟩
  · exact ⟨rfl, rfl, rfl, hidle, fun _ => rfl, fun _ => rfl, fun _ => ⟨rfl, rfl⟩, fun _ => rfl⟩
  · obtain ⟨hplace, hidle⟩ := transfer_samePlace hrun
    obtain ⟨hstore, hdraws⟩ := transfer_keepsKind hrun
    exact ⟨hplace.params, hplace.refused, hplace.input, hidle, fun _ => hplace.pt,
      fun hw => hstore (accessKindOf_read hw), fun hno => (nomatch hi.symm.trans hno),
      fun hne => hdraws (wantOf_ne_value hne)⟩

/-- Settles O58: the device's update leaves the history alone, and every phase and request only appends to it. -/
theorem historyOnlyGrows : Obligations.HistoryOnlyGrows := by
  intro s t h
  obtain ⟨hmark, -, ⟨-, -, rfl⟩ | ⟨-, -, hphase⟩ | ⟨sa, bs, b, rest, -, hupdate⟩ | ⟨r, b, rest, i, -, -, hexec⟩⟩ :=
    step_eq_next h
  · exact ⟨List.prefix_rfl, List.prefix_rfl, rfl, hmark⟩
  · obtain ⟨htrace, hresp⟩ := (phase_of_fsmStep hphase).grows
    have hplace := fsmStep_samePlace hphase
    exact ⟨htrace, hresp, hplace.params, hplace.refused.trans hmark⟩
  · obtain ⟨-, -, rfl⟩ := deviceUpdate_eq_next hupdate
    exact ⟨List.prefix_rfl, List.prefix_rfl, rfl, hmark⟩
  · obtain ⟨htrace, hresp⟩ := exec_grows hexec
    obtain ⟨hparams, hrefused, -⟩ := frameOfEveryRequest i _ t hexec
    exact ⟨htrace, hresp, hparams, hrefused.trans hmark⟩

/-- Settles O49: the decoder and the request make the same check of the data word. -/
theorem scalarWriteRefusesHighBits : Obligations.ScalarWriteRefusesHighBits := by
  intro w addr dw hwide
  have hfits : ¬ w.fits dw = true := fun hf => Nat.not_lt.2 hwide (of_decide_eq_true hf)
  refine ⟨fun p q hword => ?_, fun s hidle haddr => ?_⟩
  · simp only [decode, hword, takeData, if_neg hfits]
  · rw [exec_writeN, scalarWrite, acceptAt_ok hidle haddr, if_neg hfits]

end Sys2Proof.Machine
end

section
/-! SUPPORT. The invariant of good states (R24, R25, R33, R34): construction, `MAP`, a device update, every phase and every
step keep it; and what `MAP` does to a free span (R114 to R116), with the statements about them. -/

namespace Sys2Proof.Machine

/-! ## `MAP` into a free span (R113, R114) -/

section
variable {p : Params} {pt : List Slot} {m : Mapping}

/-- A span has at least one slot (R112). -/
theorem first_le_last (hfits : m.fits p = true) : m.first p ≤ m.last p := by
  obtain ⟨hlen, -, -⟩ := fits_iff.1 hfits
  have hstop : m.stop = m.base.toNat + m.len.toNat := rfl
  exact page_mono (by omega)

/-- A mapping of the table stays one when another mapping is written into free slots (R26). -/
theorem mapped_commit_of_mapped {m' : Mapping} (hfree : spanFree p m pt = true) (hm : m'.mapped p pt = true) :
    m'.mapped p (commit p m pt) = true := by
  obtain ⟨hfits, hslots⟩ := mapped_iff.1 hm
  exact mapped_iff.2 ⟨hfits, fun i hfirst hlast => slotAt_commit_of_some hfree (hslots i hfirst hlast)⟩

/-- Pass 2 makes the registration a mapping of the table (R24, R114). -/
theorem mapped_commit (hp : p.Legal) (hlen : pt.length = p.npages) (hfits : m.fits p = true) :
    m.mapped p (commit p m pt) = true := by
  refine mapped_iff.2 ⟨hfits, fun i hfirst hlast => ?_⟩
  have hspan := span_le_npages hp hfits
  rw [slotAt_commit (by omega), if_pos ⟨hfirst, hlast⟩]

/-- `MAP` keeps the occupancy invariant (R24, R25). -/
theorem tableOk_commit (hp : p.Legal) (htable : tableOk p pt = true) (hfits : m.fits p = true)
    (hfree : spanFree p m pt = true) : tableOk p (commit p m pt) = true := by
  obtain ⟨hlen, hentries⟩ := tableOk_iff.1 htable
  refine tableOk_iff.2 ⟨(length_commit p m pt).trans hlen, fun i e he => ?_⟩
  have hi : i < pt.length := length_commit p m pt ▸ lt_length_of_slotAt he
  rw [slotAt_commit hi] at he
  split_ifs at he with hspan
  · cases he
    rw [mapping_entry]
    exact ⟨mapped_commit hp hlen hfits, inSpan_iff.2 hspan⟩
  · obtain ⟨hmapped, hin⟩ := hentries i e he
    exact ⟨mapped_commit_of_mapped hfree hmapped, hin⟩

/-- An entry of the table is in some slot (R21). -/
theorem exists_slotAt_of_mem {e : Entry} (he : some e ∈ pt) : ∃ i, slotAt pt i = some e := by
  obtain ⟨i, hi, hslot⟩ := List.mem_iff_getElem.1 he
  exact ⟨i, by rw [slotAt, List.getElem?_eq_getElem hi, hslot, Option.getD_some]⟩

theorem mem_of_slotAt {e : Entry} {i : Nat} (he : slotAt pt i = some e) : some e ∈ pt :=
  List.mem_of_getElem? (slotAt_eq_some.1 he)

/-- `MAP` stores an identity of DevIdWidth bits (R22). -/
theorem devsFit_commit (hdevs : devsFit p pt = true) (hm : m.dev.toNat < 2 ^ p.devIdWidth) :
    devsFit p (commit p m pt) = true := by
  refine devsFit_iff.2 fun e he => ?_
  obtain ⟨i, hslot⟩ := exists_slotAt_of_mem he
  have hi : i < pt.length := length_commit p m pt ▸ lt_length_of_slotAt hslot
  rw [slotAt_commit hi] at hslot
  split_ifs at hslot
  · cases hslot
    exact hm
  · exact devsFit_iff.1 hdevs e (mem_of_slotAt hslot)

end

section
variable {p : Params} {dev : DevId} {addr len ptr : Field}

@[simp] theorem mappingOf_len_toNat : (mappingOf p dev addr len ptr).len.toNat = len.toNat :=
  BitVec.toNat_setWidth_of_le (by decide)

theorem mappingOf_dev_lt : (mappingOf p dev addr len ptr).dev.toNat < 2 ^ p.devIdWidth := by
  rw [mappingOf, devOf_toNat]
  exact Nat.mod_lt _ (Nat.two_pow_pos _)

/-- The preconditions of `MAP` on its operands are those of its mapping (R111). -/
theorem mappingOf_fits (hlen : len ≠ 0) (htop : addr.toNat + len.toNat ≤ p.top)
    (hbuffer : ptr.toNat + len.toNat ≤ p.storeSize) : (mappingOf p dev addr len ptr).fits p = true := by
  have hpos : len.toNat ≠ 0 := fun hzero => hlen (BitVec.eq_of_toNat_eq hzero)
  refine fits_iff.2 ⟨?_, ?_, ?_⟩
  · rw [mappingOf_len_toNat]; omega
  · rwa [mappingOf_stop]
  · rwa [mappingOf_len_toNat]

/-- The entry of a slot in the operands (R23, R114): the bytes before the slot are skipped. -/
theorem mappingOf_entry (i : Nat) : (mappingOf p dev addr len ptr).entry p i =
    ⟨devOf p dev, addr, len.setWidth 33,
      BitVec.ofNat 32 (ptr.toNat + (max addr.toNat (pagebase p i) - addr.toNat))⟩ := by
  rw [BitVec.ofNat_add, BitVec.ofNat_toNat, BitVec.setWidth_eq]
  rfl

theorem spanFree_mappingOf {pt : List Slot}
    (hfree : ∀ i, page p addr.toNat ≤ i → i ≤ page p (addr.toNat + len.toNat - 1) → slotAt pt i = none) :
    spanFree p (mappingOf p dev addr len ptr) pt = true := by
  rw [spanFree_iff, mappingOf_first, mappingOf_last]
  exact hfree

end

/-- The state after a `MAP` that is answered with `OK` (R115). -/
def State.afterMap (s : State) (dev : DevId) (addr len ptr : Field) : State :=
  State.respond { s with pt := commit s.params (mappingOf s.params dev addr len ptr) s.pt } (.status .ok)

section
variable {s : State} {dev : DevId} {addr len ptr : Field}

@[simp] theorem afterMap_pt :
    (s.afterMap dev addr len ptr).pt = commit s.params (mappingOf s.params dev addr len ptr) s.pt := rfl
theorem execMap_of_spanFree (hidle : s.fsm = .idle) (hlen : len ≠ 0) (htop : addr.toNat + len.toNat ≤ s.params.top)
    (hbuffer : ptr.toNat + len.toNat ≤ s.params.storeSize)
    (hfree : spanFree s.params (mappingOf s.params dev addr len ptr) s.pt = true) :
    execMap dev addr len ptr s = .next (s.afterMap dev addr len ptr) := by
  rw [execMap, acceptAt_ok hidle (lt_top_of_span hlen htop), if_neg hlen, if_neg (Nat.not_lt.2 htop),
    if_neg (Nat.not_lt.2 hbuffer), if_pos hfree, State.afterMap]

/-- The slots after a `MAP` (R114), those past the table among them. -/
theorem slotAt_afterMap (hp : s.params.Legal) (htable : tableOk s.params s.pt = true)
    (hfits : (mappingOf s.params dev addr len ptr).fits s.params = true) (i : Nat) :
    slotAt (s.afterMap dev addr len ptr).pt i =
      if page s.params addr.toNat ≤ i ∧ i ≤ page s.params (addr.toNat + len.toNat - 1) then
        some ((mappingOf s.params dev addr len ptr).entry s.params i)
      else slotAt s.pt i := by
  obtain ⟨hsize, -⟩ := tableOk_iff.1 htable
  have hspan := span_le_npages hp hfits
  rw [mappingOf_first, mappingOf_last] at hspan
  rcases Nat.lt_or_ge i s.pt.length with hlt | hge
  · rw [afterMap_pt, slotAt_commit hlt, mappingOf_first, mappingOf_last]
  · have hpast : slotAt s.pt i = none := by rw [slotAt, List.getElem?_eq_none hge, Option.getD_none]
    rw [afterMap_pt, slotAt_commit_ge hge, if_neg (by omega), hpast]

end

/-! ## Good states -/

section
variable {s t : State}

/-- The invariant does not look at the arrivals. -/
theorem State.Inv.takeInput (h : s.Inv) (rest : List Arrival) : State.Inv { s with input := rest } :=
  ⟨h.legal, h.table, h.devs, h.store, h.idle, h.trace⟩

theorem State.Inv.respond (h : s.Inv) (r : Response) : (s.respond r).Inv :=
  ⟨h.legal, h.table, h.devs, h.store, h.idle, h.trace⟩

theorem State.Inv.afterMap (h : s.Inv) {dev : DevId} {addr len ptr : Field}
    (hfits : (mappingOf s.params dev addr len ptr).fits s.params = true)
    (hfree : spanFree s.params (mappingOf s.params dev addr len ptr) s.pt = true) :
    (s.afterMap dev addr len ptr).Inv :=
  ⟨h.legal, tableOk_commit h.legal h.table hfits hfree, devsFit_commit h.devs mappingOf_dev_lt, h.store, h.idle, h.trace⟩

theorem State.Inv.execMap (h : s.Inv) {dev : DevId} {addr len ptr : Field} (hmap : execMap dev addr len ptr s = .next t) :
    t.Inv := by
  obtain ⟨-, -, hlen, htop, hbuffer, ⟨hfree, rfl⟩ | ⟨-, rfl⟩⟩ := execMap_eq_next hmap
  · exact h.afterMap (mappingOf_fits hlen htop hbuffer) hfree
  · exact h.respond _

theorem State.Inv.deviceUpdate (h : s.Inv) {sa : Nat} {bs : List Byte} (hupdate : deviceUpdate sa bs s = .next t) :
    t.Inv := by
  obtain ⟨-, hend, rfl⟩ := deviceUpdate_eq_next hupdate
  exact ⟨h.legal, h.table, h.devs, wf_writeBytes h.store hend, h.idle, h.trace⟩

/-- The part of the invariant that holds in the midst of a transfer too: the canonical form of the store (R33) and the
addresses of the events (R34). -/
def StoreAndTraceOk (u : State) : Prop := Memory.wf u.params u.store = true ∧ ∀ e ∈ u.trace, e.addr < u.params.top

/-- No phase leaves the store's bytes or reports an address outside the bus space (R33, R34). -/
theorem Phase.storeAndTraceOk {u v : State} (h : Phase u v) (hu : StoreAndTraceOk u) : StoreAndTraceOk v := by
  obtain ⟨hstore, htrace⟩ := hu
  cases h with
  | finish | hit | copyRead => exact ⟨hstore, htrace⟩
  | fault x b hf hcur =>
    refine ⟨hstore, fun e he => ?_⟩
    rcases List.mem_append.1 he with hold | hnew
    · exact htrace e hold
    · cases List.mem_singleton.1 hnew
      exact faultAddr_lt_top hcur
  | copyWrite x c sa hf hdir hend =>
    have hlen : ((x.data.drop x.done).take c).length ≤ c := List.length_take_le ..
    exact ⟨wf_writeBytes hstore (le_trans (Nat.add_le_add_left hlen sa) hend), htrace⟩
  | done x =>
    rw [StoreAndTraceOk, doneStep_params, doneStep_store, doneStep_trace]
    exact ⟨hstore, htrace⟩

theorem State.Inv.transfer (h : s.Inv) {dir : AccessKind} {start cnt : Nat} {data : List Byte} {want : Want}
    (hrun : transfer dir start cnt data want s = .next t) : t.Inv := by
  obtain ⟨hplace, hidle⟩ := transfer_samePlace hrun
  have hkeeps := transfer_induct (R := fun u v => StoreAndTraceOk u → StoreAndTraceOk v) (fun _ => id)
    (fun _ _ _ huv hvw => hvw ∘ huv) (fun _ _ => Phase.storeAndTraceOk) hrun
  obtain ⟨hstore, htrace⟩ := hkeeps ⟨h.store, h.trace⟩
  exact ⟨hplace.params ▸ h.legal, by rw [hplace.params, hplace.pt]; exact h.table,
    by rw [hplace.params, hplace.pt]; exact h.devs, hstore, hidle, htrace⟩

/-- Every request keeps the invariant. -/
theorem State.Inv.exec (h : s.Inv) {i : Instr} (hexec : exec i s = .next t) : t.Inv := by
  obtain ⟨dev, addr, len, ptr, -, hmap⟩ | ⟨-, -, rfl⟩ | ⟨-, -, -, -, hrun⟩ := exec_eq_next hexec
  · exact h.execMap hmap
  · exact h.respond _
  · exact h.transfer hrun

end

/-- A machine just constructed is good (R8, R36). -/
theorem inv_construct {p : Params} (hp : p.Legal) : (State.construct p).Inv where
  legal := hp
  table := tableOk_construct p
  devs := devsFit_iff.2 fun _ he => nomatch List.eq_of_mem_replicate he
  store := wf_construct p
  idle := rfl
  trace _ he := nomatch he

theorem legal_reference : Config.reference.Legal := ⟨by decide, by decide, by decide, by decide, by decide⟩

/-! ## The table over many steps (R26, R116) -/

/-- What every step keeps of the table and the parameters (R8, R26). -/
def KeepsEntries (u v : State) : Prop :=
  v.params = u.params ∧ ∀ i e, slotAt u.pt i = some e → slotAt v.pt i = some e

theorem KeepsEntries.trans {u v w : State} (h : KeepsEntries u v) (h' : KeepsEntries v w) : KeepsEntries u w :=
  ⟨h'.1.trans h.1, fun i e he => h'.2 i e (h.2 i e he)⟩

theorem step_keepsEntries {u v : State} (h : step u = .next v) : KeepsEntries u v :=
  ⟨(historyOnlyGrows u v h).2.2.1, fun i e he => (slotsAreWriteOnce u v i h).1 e he⟩

/-- A chain of steps keeps what every step keeps. -/
theorem steps_keepEntries {t u : State} {steps : List State}
    (h : List.IsChain (fun v w => step v = .next w) (t :: (steps ++ [u]))) : KeepsEntries t u := by
  induction steps generalizing t with
  | nil => exact step_keepsEntries (List.isChain_cons_cons.1 h).1
  | cons v steps ih =>
    obtain ⟨hstep, hrest⟩ := List.isChain_cons_cons.1 h
    exact (step_keepsEntries hstep).trans (ih hrest)

/-! ## The statements -/

/-- Settles O57: an arrival is taken from the port, and a device update or a request keeps the invariant. -/
theorem stepKeepsGoodStates : Obligations.StepKeepsGoodStates := by
  intro s t hinv h
  obtain ⟨-, -, ⟨-, -, rfl⟩ | ⟨-, hbusy, -⟩ | ⟨sa, bs, b, rest, -, hupdate⟩ | ⟨r, b, rest, i, -, -, hexec⟩⟩ :=
    step_eq_next h
  · exact hinv
  · exact absurd hinv.idle hbusy
  · exact (hinv.takeInput rest).deviceUpdate hupdate
  · exact (hinv.takeInput rest).exec hexec

/-- Settles O56: the parameters of the reset state are legal. -/
theorem constructionIsGood : Obligations.ConstructionIsGood :=
  ⟨fun _ hp => inv_construct hp, inv_construct legal_reference⟩

/-- Settles O10: the update is taken from the port and writes its bytes. -/
theorem deviceUpdateChangesItsBytes : Obligations.DeviceUpdateChangesItsBytes := by
  intro s sa bs b rest hinv hrefused hended hin hnext hend
  have hupdate : deviceUpdate sa bs { s with input := rest } =
      .next { s with input := rest, store := Memory.writeBytes s.params.store0 s.store sa bs } :=
    (whenIdle_idle hinv.idle).trans (if_neg (Nat.not_lt.2 hend))
  exact ⟨_, (step_update hrefused hended hin hnext).trans hupdate, rfl,
    fun a => read_writeBytes (wf_iff.1 hinv.store).1 sa a bs⟩

/-- Settles O11: the slots of the span hold the mapping's entries, and `MAP` changes the table and answers alone. -/
theorem mapRegistersFreeSpan : Obligations.MapRegistersFreeSpan := by
  intro dev addr len ptr s hinv hlen htop hbuffer hfree
  have hfits := mappingOf_fits (dev := dev) hlen htop hbuffer
  refine ⟨devOf_eq_self, devOf_toNat s.params dev, s.afterMap dev addr len ptr,
    execMap_of_spanFree hinv.idle hlen htop hbuffer (spanFree_mappingOf hfree), rfl, length_commit .., fun i => ?_⟩
  rw [slotAt_afterMap hinv.legal hinv.table hfits, mappingOf_entry]

/-- Settles O14: the second span is as free as it was, or the two spans share the later of their first slots. -/
theorem twoMapsConflictByPage : Obligations.TwoMapsConflictByPage := by
  intro d d' a n q a' n' q' s hinv hlen htop hbuffer hlen' htop' hbuffer' hfree hfree'
  have hfits := mappingOf_fits (dev := d) hlen htop hbuffer
  have hslot := slotAt_afterMap hinv.legal hinv.table hfits
  have hfirst := execMap_of_spanFree hinv.idle hlen htop hbuffer (spanFree_mappingOf (dev := d) (ptr := q) hfree)
  have hspan := first_le_last hfits
  have hspan' := first_le_last (mappingOf_fits (dev := d') hlen' htop' hbuffer')
  rw [mappingOf_first, mappingOf_last] at hspan hspan'
  by_cases hshare : page s.params a'.toNat ≤ page s.params (a.toNat + n.toNat - 1) ∧
      page s.params a.toNat ≤ page s.params (a'.toNat + n'.toNat - 1)
  · obtain ⟨hle, hle'⟩ := hshare
    have hslotShared := hslot (max (page s.params a.toNat) (page s.params a'.toNat))
    rw [if_pos (by omega)] at hslotShared
    have hspanFree := spanFree_eq_false_of_slotAt (p := s.params) (m := mappingOf s.params d' a' n' q')
      (by rw [mappingOf_first]; omega) (by rw [mappingOf_last]; omega) hslotShared
    have hsecond := execMap_of_spanFree_eq_false (s := s.afterMap d a n q) hinv.idle hlen' htop' hbuffer' hspanFree
    exact ⟨_, _, hfirst, hsecond, fun hdisjoint => by omega, fun _ => ⟨List.append_assoc .., rfl⟩⟩
  · have hspanFree := spanFree_mappingOf (p := s.params) (dev := d') (addr := a') (len := n') (ptr := q')
      (pt := (s.afterMap d a n q).pt) fun i hge hle => by rw [hslot, if_neg (by omega), hfree' i hge hle]
    have hsecond := execMap_of_spanFree (s := s.afterMap d a n q) hinv.idle hlen' htop' hbuffer' hspanFree
    exact ⟨_, _, hfirst, hsecond, fun _ => List.append_assoc .., fun h => absurd h hshare⟩

/-- Settles O15: the entry in the first slot of the span outlives every step. -/
theorem mapRepeatedIsRejected : Obligations.MapRepeatedIsRejected := by
  intro dev addr len ptr s t u steps hexec hresp hchain hinv hidle
  obtain ⟨-, -, hlen, htop, hbuffer, ⟨-, rfl⟩ | ⟨-, rfl⟩⟩ := execMap_eq_next hexec
  · have hfits := mappingOf_fits (dev := dev) hlen htop hbuffer
    have hmapped := mapped_commit hinv.legal (tableOk_iff.1 hinv.table).1 hfits
    obtain ⟨hparams, hkeeps⟩ := steps_keepEntries hchain
    rw [respond_params] at hparams
    have hspan := first_le_last hfits
    have hslot := hkeeps _ _ ((mapped_iff.1 hmapped).2 _ le_rfl hspan)
    have hfree := spanFree_eq_false_of_slotAt le_rfl hspan hslot
    rw [← hparams] at hfree htop hbuffer
    rw [exec_map, execMap_of_spanFree_eq_false hidle hlen htop hbuffer hfree, State.respond]
  · rw [respond_responses] at hresp
    cases List.append_cancel_left hresp

end Sys2Proof.Machine
end

section
/-! SUPPORT. Translation in a good table (R56, R57, R133, R145): the covering mapping, its store addresses, the chunk of a
`HIT` and the fault after a `HIT`, with the statements about them. -/

namespace Sys2Proof.Machine

section
variable {p : Params} {pt : List Slot} {m : Mapping} {a : Nat}

/-! ## The mapping of a `HIT` (R56, R57) -/

theorem storeAddrOf_of_mapped (hp : p.Legal) (hm : m.mapped p pt = true) (hcov : m.covers a = true) :
    storeAddrOf p pt a = m.ptr.toNat + (a - m.base.toNat) := by
  rw [storeAddrOf, xlate_of_mapped hp hm hcov, Xlate.storeAddr, Option.getD_some]

/-- An address in the extent of two mappings is in the span of both, so they are one (R25). -/
theorem mapping_unique {m' : Mapping} (hm : m.mapped p pt = true) (hm' : m'.mapped p pt = true)
    (hcov : m.covers a = true) (hcov' : m'.covers a = true) : m' = m :=
  mappingsShareNoSlot p pt m' m (page p a) hm' hm (inSpan_page hcov') (inSpan_page hcov)

/-- R57: a `HIT` is an address of some mapping's extent. -/
theorem isHit_iff (hp : p.Legal) (ht : tableOk p pt = true) :
    (xlate p pt a).storeAddr.isSome = true ↔ ∃ m : Mapping, m.mapped p pt = true ∧ m.covers a = true := by
  constructor
  · intro h
    obtain ⟨e, sa, hhit⟩ := storeAddr_isSome_iff.1 h
    obtain ⟨m, hm, hcov, -⟩ := mapped_of_hit ht hhit
    exact ⟨m, hm, hcov⟩
  · rintro ⟨m, hm, hcov⟩
    rw [xlate_of_mapped hp hm hcov]
    rfl

/-- A run of addresses in one extent is a run of `HIT`s. -/
theorem allHits_of_mapped {n : Nat} (hp : p.Legal) (hm : m.mapped p pt = true) (hbase : m.base.toNat ≤ a)
    (hstop : a + n ≤ m.stop) : allHits p pt a n = true := by
  obtain ⟨-, htop, -⟩ := fits_iff.1 (mapped_iff.1 hm).1
  refine allHits_iff.2 ⟨hstop.trans htop, fun j hj => ?_⟩
  have hcov : m.covers (a + j) = true := covers_iff.2 ⟨by omega, by omega⟩
  rw [xlate_of_mapped hp hm hcov]
  rfl

/-! ## The fault after a `HIT` (R137, R145) -/

theorem faultsAt_iff {f : Nat} : faultsAt p pt a f = true ↔
    a < p.top ∧ (xlate p pt a).storeAddr = none ∧ f = (xlate p pt a).faultAddr a := by
  simp only [faultsAt, Bool.and_eq_true, decide_eq_true_eq, Option.isNone_iff_eq_none, and_assoc]

theorem slotAt_of_hit {e : Entry} {sa : Nat} (h : xlate p pt a = .hit e sa) : slotAt pt (page p a) = some e := by
  unfold xlate at h
  split at h
  · cases h
  · split_ifs at h
    cases h
    assumption

theorem slotAt_of_beyondExtent {e : Entry} (h : xlate p pt a = .beyondExtent e) :
    slotAt pt (page p a) = some e ∧ e.stop ≤ a := by
  unfold xlate at h
  split at h
  · cases h
  · split_ifs at h with hbase hstop
    cases h
    exact ⟨‹_›, hstop⟩

/-- The extent that ends before the address after a `HIT` ends right there: a page holds one entry, and that of the `HIT`
reaches past it (R25, R145). -/
theorem stop_eq_of_hit {e e' : Entry} {sa : Nat} (ht : tableOk p pt = true) (hhit : xlate p pt a = .hit e' sa)
    (hbeyond : xlate p pt (a + 1) = .beyondExtent e) : e.stop = a + 1 := by
  obtain ⟨hslot, hstop⟩ := slotAt_of_beyondExtent hbeyond
  obtain ⟨hm, hspan⟩ := (tableOk_iff.1 ht).2 _ _ hslot
  have hlen := (fits_iff.1 (mapped_iff.1 hm).1).1
  have hlast : pagebase p (page p (a + 1)) ≤ (e.mapping p (page p (a + 1))).stop - 1 :=
    le_page_iff.1 (inSpan_iff.1 hspan).2
  have hext : (e.mapping p (page p (a + 1))).stop = e.base.toNat + (e.mapping p (page p (a + 1))).len.toNat := rfl
  have hstop' : (e.mapping p (page p (a + 1))).stop = e.stop := rfl
  by_contra hne
  have hpage : page p a = page p (a + 1) :=
    le_antisymm (page_mono (Nat.le_succ a)) (le_page_iff.2 (by omega))
  have hsame : some e' = some e := (slotAt_of_hit hhit).symm.trans (hpage ▸ hslot)
  cases hsame
  have := (hit_bounds hhit).2
  omega

end

/-! ## The statements -/

/-- Settles O17: `isHit_iff`, and the store address and the uniqueness of the covering mapping. -/
theorem hitIsTheCoveringMapping : Obligations.HitIsTheCoveringMapping := by
  intro p pt a hp ht
  exact ⟨isHit_iff hp ht, fun m hm hcov =>
    ⟨storeAddrOf_of_mapped hp hm hcov, fun m' hm' hcov' => mapping_unique hm hm' hcov hcov'⟩⟩

/-- Settles O19: the chunk ends at the mapping's end at the latest. -/
theorem chunkIsContiguous : Obligations.ChunkIsContiguous := by
  intro p pt x e sa hp ht hhit
  obtain ⟨hhits, hstore⟩ := chunk_inside (x := x) hp ht hhit
  obtain ⟨m, hm, hcov, rfl⟩ := mapped_of_hit ht hhit
  refine ⟨m, hm, rfl, fun k hk => ?_⟩
  have htop := (allHits_iff.1 hhits).1
  have hle : chunkLen (m.entry p (page p x.cur)) x ≤ m.stop - x.cur := Nat.min_le_right _ _
  have hcovk : m.covers (x.cur + k) = true := by
    rw [covers_iff] at hcov ⊢
    omega
  rw [xlate_of_mapped hp hm hcov] at hhit
  obtain ⟨-, hsa⟩ := (Xlate.hit.injEq ..).mp hhit
  have hbase := (covers_iff.1 hcov).1
  refine ⟨hcovk, ?_, by omega, by omega⟩
  rw [xlate_of_mapped hp hm hcovk]
  congr 1
  omega

/-- Settles O20: of the three faults only `BEYOND_EXTENT` reports another address than its own, the extent's end. -/
theorem faultAfterProgressNamesFirstUnmoved : Obligations.FaultAfterProgressNamesFirstUnmoved := by
  intro p pt a k f hp ht hk hhits hfault
  obtain ⟨-, hmiss, rfl⟩ := faultsAt_iff.1 hfault
  obtain ⟨n, rfl⟩ : ∃ n, k = n + 1 := ⟨k - 1, by omega⟩
  obtain ⟨e', sa, hhit⟩ := storeAddr_isSome_iff.1 ((allHits_iff.1 hhits).2 n (Nat.lt_succ_self n))
  rw [← Nat.add_assoc] at hmiss ⊢
  cases hclass : xlate p pt (a + n + 1) with
  | hit e sa => rw [hclass] at hmiss; cases hmiss
  | unmapped | belowBase e => rfl
  | beyondExtent e => rw [faultAddr_beyondExtent, stop_eq_of_hit ht hhit hclass]

end Sys2Proof.Machine
end

section
/-! SUPPORT. Every transfer of a good state, from its start to its end (R135 to R140, R201): its `HIT`s move, and then it is
done, refused at TOP or stopped by an access fault; the byte-serial form, and the statements about the engine. -/

namespace Sys2Proof.Machine

/-! ## Where a transfer's `HIT`s end -/

section
variable {p : Params} {pt : List Slot} {a n : Nat}

/-- No byte moves at `a`: none is left, or `a` is TOP, or a bus address that faults (R135). -/
def EndsAt (p : Params) (pt : List Slot) (a n : Nat) : Prop :=
  n = 0 ∨ (n ≠ 0 ∧ a = p.top) ∨ (n ≠ 0 ∧ a < p.top ∧ (xlate p pt a).storeAddr = none)

/-- Every transfer moves some number of `HIT`s and ends. -/
theorem exists_endsAt (n : Nat) (ha : a ≤ p.top) :
    ∃ c, c ≤ n ∧ allHits p pt a c = true ∧ EndsAt p pt (a + c) (n - c) := by
  induction n with
  | zero => exact ⟨0, le_rfl, allHits_zero ha, .inl rfl⟩
  | succ n ih =>
    obtain ⟨c, hc, hhits, hend | hend⟩ := ih
    · obtain rfl : c = n := by omega
      obtain htop | hlt := (allHits_iff.1 hhits).1.eq_or_lt
      · exact ⟨c, Nat.le_succ c, hhits, .inr (.inl ⟨by omega, htop⟩)⟩
      · cases hclass : (xlate p pt (a + c)).storeAddr with
        | none => exact ⟨c, Nat.le_succ c, hhits, .inr (.inr ⟨by omega, hlt, hclass⟩)⟩
        | some sa =>
          have hlast : allHits p pt (a + c) 1 = true := allHits_iff.2 ⟨hlt, fun j hj => by
            obtain rfl : j = 0 := by omega
            rw [Nat.add_zero, hclass]
            rfl⟩
          exact ⟨c + 1, le_rfl, allHits_add.2 ⟨hhits, hlast⟩, .inl (Nat.sub_self _)⟩
    · refine ⟨c, Nat.le_succ_of_le hc, hhits, .inr ?_⟩
      obtain ⟨-, htop⟩ | ⟨-, hfault⟩ := hend
      · exact .inl ⟨by omega, htop⟩
      · exact .inr ⟨by omega, hfault⟩

/-- A run of `HIT`s does not go past such an address. -/
theorem le_of_endsAt {c k : Nat} (hend : EndsAt p pt (a + c) (n - c)) (hk : k ≤ n) (hhits : allHits p pt a k = true) :
    k ≤ c := by
  by_contra hlt
  obtain ⟨htop, hhit⟩ := allHits_iff.1 hhits
  obtain hnone | ⟨-, hat⟩ | ⟨-, -, hmiss⟩ := hend
  · omega
  · omega
  · have := hhit c (by omega)
    rw [hmiss] at this
    cases this

end

/-! ## The engine up to there (R132 to R136) -/

section
variable {s t : State} {x : Xfer} {n : Nat}

/-- From `LOOKUP` the engine moves all `HIT`s before the end, and has two phases left there: by induction on their number,
which every chunk lessens. -/
theorem runFsm_hits {c : Nat} (h : s.fsm = .lookup x) (hp : s.params.Legal) (ht : tableOk s.params s.pt = true)
    (hc : c ≤ x.rem) (hhits : allHits s.params s.pt x.cur c = true)
    (hend : EndsAt s.params s.pt (x.cur + c) (x.rem - c)) (hfuel : 2 * x.rem + 2 ≤ n) :
    ∃ k, runFsm n s = runFsm (k + 2) (moveHits s x c) := by
  induction hk : c using Nat.strong_induction_on generalizing s x n c with
  | _ _ ih =>
  subst hk
  obtain ⟨n, rfl⟩ : ∃ m, n = m + 2 := ⟨n - 2, by omega⟩
  by_cases hzero : c = 0
  · exact ⟨n, by rw [hzero, moveHits_zero h]⟩
  · have hrem : x.rem ≠ 0 := by omega
    obtain ⟨e, sa, hhit⟩ := storeAddr_isSome_iff.1 (storeAddr_isSome_of_allHits hhits (Nat.pos_of_ne_zero hzero))
    have hcur : x.cur < s.params.top := by have := (allHits_iff.1 hhits).1; omega
    have hpos : 0 < chunkLen e x := chunkLen_pos hrem hhit
    have hle : chunkLen e x ≤ c := le_of_endsAt hend chunkLen_le_rem (chunk_inside hp ht hhit).1
    have hsplit : chunkLen e x + (c - chunkLen e x) = c := Nat.add_sub_cancel' hle
    have hrest := (allHits_add.1 (hsplit.symm ▸ hhits)).2
    obtain ⟨k, hrun⟩ := ih (c - chunkLen e x) (by omega) (s := moveHits s x (chunkLen e x))
      (x := x.afterHits s (chunkLen e x)) (n := n) rfl hp ht (by rw [afterHits_rem]; omega) hrest
      (by rwa [afterHits_cur, afterHits_rem, Nat.add_assoc, Nat.sub_sub, hsplit])
      (by rw [afterHits_rem]; omega) rfl
    exact ⟨k, by rw [runFsm_moveHits_chunk h hp ht hrem hcur hhit, hrun, moveHits_moveHits, hsplit]⟩

/-! ## The engine from there to `IDLE` (R138, R200, R201) -/

/-- What a transfer of the registers `x` does after an access fault that reports `f`, by the notifier's reaction to its
event (R193, R201, R202, R239). -/
def afterFault (s : State) (x : Xfer) (f : Nat) : Host.Outcome State Fault Refusal :=
  match nextReaction s with
  | .returns => .next (doneStep { s with trace := s.trace ++ [⟨f, x.dir⟩] } x)
  | .endsSystem => .next { s with trace := s.trace ++ [⟨f, x.dir⟩], fsm := .idle, ended := true }
  | .issuesRequest => .refused .reentrantRequest

section
variable {f : Nat}

theorem afterFault_returns (h : nextReaction s = .returns) :
    afterFault s x f = .next (doneStep { s with trace := s.trace ++ [⟨f, x.dir⟩] } x) := by
  rw [afterFault, h]

theorem afterFault_endsSystem (h : nextReaction s = .endsSystem) :
    afterFault s x f = .next { s with trace := s.trace ++ [⟨f, x.dir⟩], fsm := .idle, ended := true } := by
  rw [afterFault, h]

theorem afterFault_issuesRequest (h : nextReaction s = .issuesRequest) :
    afterFault s x f = .refused .reentrantRequest := by
  rw [afterFault, h]

theorem afterFault_not_fault {g : Fault} : afterFault s x f ≠ .fault g := by
  unfold afterFault
  split <;> nofun

/-- The store is not written after the fault point: "no rollback" and no byte more (R142, R200). -/
theorem afterFault_store (h : afterFault s x f = .next t) : t.store = s.store := by
  unfold afterFault at h
  split at h
  · cases h
    exact doneStep_store ..
  · cases h
    rfl
  · cases h

end

section
variable (h : s.fsm = .lookup x)
include h

theorem runFsm_rem_zero (hrem : x.rem = 0) : runFsm (n + 2) s = .next (doneStep s x) := by
  rw [runFsm_of_next (ne_idle_of_lookup h) (fsmStep_lookup_of_rem_eq_zero h hrem), runFsm_done rfl]
  rfl

theorem runFsm_top (hrem : x.rem ≠ 0) (htop : x.cur = s.params.top) :
    runFsm (n + 2) s = .refused .transferBeyondTop :=
  runFsm_of_refused (ne_idle_of_lookup h) (fsmStep_lookup_of_top_le h hrem htop.ge)

theorem runFsm_fault (hrem : x.rem ≠ 0) (hcur : x.cur < s.params.top)
    (hfault : (xlate s.params s.pt x.cur).storeAddr = none) :
    runFsm (n + 2) s = afterFault s x ((xlate s.params s.pt x.cur).faultAddr x.cur) := by
  have hbusy := ne_idle_of_lookup h
  have hstep := fsmStep_lookup_of_fault h hrem hcur hfault
  cases hreaction : nextReaction s with
  | returns =>
    simp only [raiseAccessFault, hreaction] at hstep
    rw [runFsm_of_next hbusy hstep, runFsm_done rfl, afterFault_returns hreaction]
    rfl
  | endsSystem =>
    simp only [raiseAccessFault, hreaction] at hstep
    rw [runFsm_of_next hbusy hstep, runFsm_done rfl, afterFault_endsSystem hreaction]
    rfl
  | issuesRequest =>
    simp only [raiseAccessFault, hreaction] at hstep
    rw [runFsm_of_refused hbusy hstep, afterFault_issuesRequest hreaction]

end

end

/-! ## The whole transfer -/

/-- The registers at the start (R135). -/
def startXfer (dir : AccessKind) (start cnt : Nat) (data : List Byte) (want : Want) : Xfer :=
  ⟨dir, start, cnt, start, 0, cnt, [], data, want⟩

section
variable {s t : State} {dir : AccessKind} {start cnt c : Nat} {data : List Byte} {want : Want}

/-- The state with `c` bytes moved, all of them `HIT`s, and the engine in `LOOKUP`. -/
def movedState (s : State) (dir : AccessKind) (start cnt : Nat) (data : List Byte) (want : Want) (c : Nat) : State :=
  moveHits (startTransfer s dir start cnt data want) (startXfer dir start cnt data want) c

/-- The registers there. -/
def movedXfer (s : State) (dir : AccessKind) (start cnt : Nat) (data : List Byte) (want : Want) (c : Nat) : Xfer :=
  (startXfer dir start cnt data want).afterHits (startTransfer s dir start cnt data want) c

@[simp] theorem movedState_fsm :
    (movedState s dir start cnt data want c).fsm = .lookup (movedXfer s dir start cnt data want c) := rfl

variable (hp : s.params.Legal) (ht : tableOk s.params s.pt = true)
include hp ht

/-- A transfer moves its `HIT`s, and goes on from there with two phases at least. -/
theorem transfer_moves (hc : c ≤ cnt) (hhits : allHits s.params s.pt start c = true)
    (hend : EndsAt s.params s.pt (start + c) (cnt - c)) :
    ∃ k, transfer dir start cnt data want s = runFsm (k + 2) (movedState s dir start cnt data want c) :=
  runFsm_hits (startTransfer_fsm s dir start cnt data want) hp ht hc hhits hend le_rfl

theorem transfer_of_hits (hhits : allHits s.params s.pt start cnt = true) :
    transfer dir start cnt data want s =
      .next (doneStep (movedState s dir start cnt data want cnt) (movedXfer s dir start cnt data want cnt)) := by
  obtain ⟨k, hrun⟩ := transfer_moves (dir := dir) (data := data) (want := want) hp ht le_rfl hhits
    (.inl (Nat.sub_self cnt))
  rw [hrun, runFsm_rem_zero movedState_fsm (Nat.sub_self cnt)]

theorem transfer_of_fault {f : Nat} (hc : c < cnt) (hhits : allHits s.params s.pt start c = true)
    (hfault : faultsAt s.params s.pt (start + c) f = true) :
    transfer dir start cnt data want s =
      afterFault (movedState s dir start cnt data want c) (movedXfer s dir start cnt data want c) f := by
  obtain ⟨hcur, hmiss, rfl⟩ := faultsAt_iff.1 hfault
  have hrem : cnt - c ≠ 0 := by omega
  obtain ⟨k, hrun⟩ := transfer_moves (dir := dir) (data := data) (want := want) hp ht hc.le hhits
    (.inr (.inr ⟨hrem, hcur, hmiss⟩))
  rw [hrun, runFsm_fault movedState_fsm hrem hcur hmiss]
  rfl

theorem transfer_of_top (hc : c < cnt) (hhits : allHits s.params s.pt start c = true) (htop : start + c = s.params.top) :
    transfer dir start cnt data want s = .refused .transferBeyondTop := by
  have hrem : cnt - c ≠ 0 := by omega
  obtain ⟨k, hrun⟩ := transfer_moves (dir := dir) (data := data) (want := want) hp ht hc.le hhits
    (.inr (.inl ⟨hrem, htop⟩))
  rw [hrun, runFsm_top movedState_fsm hrem htop]

/-- The three ends of a transfer: all its bytes are moved, it has bytes left at TOP, or it faults (R135, R138). -/
theorem transfer_cases (dir : AccessKind) (cnt : Nat) (data : List Byte) (want : Want) (hstart : start ≤ s.params.top) :
    (allHits s.params s.pt start cnt = true ∧ transfer dir start cnt data want s =
      .next (doneStep (movedState s dir start cnt data want cnt) (movedXfer s dir start cnt data want cnt))) ∨
    (∃ c, c < cnt ∧ allHits s.params s.pt start c = true ∧ start + c = s.params.top ∧
      transfer dir start cnt data want s = .refused .transferBeyondTop) ∨
    (∃ c f, c < cnt ∧ allHits s.params s.pt start c = true ∧ faultsAt s.params s.pt (start + c) f = true ∧
      transfer dir start cnt data want s =
        afterFault (movedState s dir start cnt data want c) (movedXfer s dir start cnt data want c) f) := by
  obtain ⟨c, hc, hhits, hend⟩ := exists_endsAt (pt := s.pt) cnt hstart
  obtain hzero | ⟨hrem, htop⟩ | ⟨hrem, hcur, hmiss⟩ := hend
  · obtain rfl : c = cnt := by omega
    exact .inl ⟨hhits, transfer_of_hits hp ht hhits⟩
  · exact .inr (.inl ⟨c, by omega, hhits, htop, transfer_of_top hp ht (by omega) hhits htop⟩)
  · have hfault := faultsAt_iff.2 ⟨hcur, hmiss, rfl⟩
    exact .inr (.inr ⟨c, _, by omega, hhits, hfault, transfer_of_fault hp ht (by omega) hhits hfault⟩)

/-- A transfer of a good table does not fault (R144). -/
theorem transfer_not_fault {g : Fault} (hstart : start ≤ s.params.top) :
    transfer dir start cnt data want s ≠ .fault g := by
  obtain ⟨-, hrun⟩ | ⟨-, -, -, -, hrun⟩ | ⟨c, f, -, -, -, hrun⟩ := transfer_cases hp ht dir cnt data want hstart
  · rw [hrun]; nofun
  · rw [hrun]; nofun
  · rw [hrun]; exact afterFault_not_fault

/-- Where a transfer answers a next state, the store is that with its first `HIT`s moved. -/
theorem transfer_store (hstart : start ≤ s.params.top) (h : transfer dir start cnt data want s = .next t) :
    ∃ c, c ≤ cnt ∧ allHits s.params s.pt start c = true ∧ t.store = (movedState s dir start cnt data want c).store := by
  obtain ⟨hhits, hrun⟩ | ⟨-, -, -, -, hrun⟩ | ⟨c, f, hc, hhits, -, hrun⟩ :=
    transfer_cases hp ht dir cnt data want hstart
  · cases h.symm.trans hrun
    exact ⟨cnt, le_rfl, hhits, doneStep_store ..⟩
  · cases h.symm.trans hrun
  · exact ⟨c, hc.le, hhits, afterFault_store (hrun.symm.trans h)⟩

end

/-! ## The byte-serial form (R139) -/

section
variable {s : State} {x : Xfer}

/-- The rest of a transfer in `LOOKUP`, in the byte-serial form. -/
def serialRest (s : State) (x : Xfer) : SerialEnd :=
  serialTransfer s.params s.pt x.dir x.rem x.cur (x.data.drop x.done) s.store x.moved

/-- A write has data for every byte that is left. -/
def HasData (x : Xfer) : Prop := x.dir = .write → x.data.length = x.done + x.rem

theorem serialRest_of_rem_zero (hrem : x.rem = 0) : serialRest s x = .stopped s.store x.moved 0 none := by
  rw [serialRest, hrem, serialTransfer]

theorem serialRest_of_top (hrem : x.rem ≠ 0) (htop : x.cur = s.params.top) : serialRest s x = .beyondTop := by
  obtain ⟨n, hn⟩ := Nat.exists_eq_succ_of_ne_zero hrem
  rw [serialRest, hn, serialTransfer, if_pos htop.ge]

theorem serialRest_of_fault (hrem : x.rem ≠ 0) (hcur : x.cur < s.params.top)
    (hfault : (xlate s.params s.pt x.cur).storeAddr = none) :
    serialRest s x = .stopped s.store x.moved x.rem (some ((xlate s.params s.pt x.cur).faultAddr x.cur)) := by
  obtain ⟨n, hn⟩ := Nat.exists_eq_succ_of_ne_zero hrem
  rw [serialRest, hn, serialTransfer, if_neg (Nat.not_le.2 hcur)]
  cases hclass : xlate s.params s.pt x.cur with
  | hit e sa => rw [hclass] at hfault; cases hfault
  | unmapped | belowBase | beyondExtent => rfl

section
variable {p : Params} {pt : List Slot} {n a sa : Nat} {e : Entry} {data moved : List Byte} {store : Memory}

/-- The byte-serial form of a `READ` has no use for data. -/
theorem serialTransfer_read_data (data' : List Byte) :
    serialTransfer p pt .read n a data store moved = serialTransfer p pt .read n a data' store moved := by
  induction n generalizing a moved with
  | zero => rfl
  | succ n ih => simp only [serialTransfer, ih]

variable (ha : a < p.top) (hhit : xlate p pt a = .hit e sa) (hsa : sa < p.storeSize)
include ha hhit hsa

theorem serialTransfer_read_hit : serialTransfer p pt .read (n + 1) a data store moved =
    serialTransfer p pt .read n (a + 1) data store (moved ++ [Memory.read p.store0 store sa]) := by
  simp only [serialTransfer, if_neg (Nat.not_le.2 ha), hhit, if_neg (Nat.not_le.2 hsa)]

theorem serialTransfer_write_hit {b : Byte} : serialTransfer p pt .write (n + 1) a (b :: data) store moved =
    serialTransfer p pt .write n (a + 1) data (Memory.write p.store0 store sa b) moved := by
  simp only [serialTransfer, if_neg (Nat.not_le.2 ha), hhit, if_neg (Nat.not_le.2 hsa), List.headD_cons, List.tail_cons]

end

/-- The byte-serial form moves one `HIT` as the engine does. -/
theorem serialRest_moveHits_one (hp : s.params.Legal) (ht : tableOk s.params s.pt = true) (hdata : HasData x)
    (hrem : x.rem ≠ 0) (hhits : allHits s.params s.pt x.cur 1 = true) :
    serialRest (moveHits s x 1) (x.afterHits s 1) = serialRest s x := by
  obtain ⟨e, sa, hhit⟩ := storeAddr_isSome_iff.1 (storeAddr_isSome_of_allHits hhits Nat.one_pos)
  have hcur : x.cur < s.params.top := (allHits_iff.1 hhits).1
  have hsa : sa < s.params.storeSize := by
    have hpos : 0 < chunkLen e x := chunkLen_pos hrem hhit
    have hend := (chunk_inside (x := x) hp ht hhit).2
    omega
  have haddr : storeAddrOf s.params s.pt x.cur = sa := by rw [storeAddrOf, hhit]; rfl
  obtain ⟨n, hn⟩ := Nat.exists_eq_succ_of_ne_zero hrem
  simp only [serialRest, moveHits_params, moveHits_pt, moveHits_store, afterHits_dir, afterHits_rem, afterHits_cur,
    afterHits_data, afterHits_done, afterHits_moved, hn, Nat.succ_eq_add_one, Nat.add_sub_cancel]
  cases hdir : x.dir with
  | read =>
    have hbyte : s.busBytes x.cur 1 = [Memory.read s.params.store0 s.store sa] := by
      rw [← haddr]
      rfl
    rw [serialTransfer_read_hit hcur hhit hsa, storeAfterHits_read hdir, movedAfterHits_read hdir, hbyte]
    exact serialTransfer_read_data _
  | write =>
    have hlen : x.done < x.data.length := by rw [hdata hdir]; omega
    rw [List.drop_eq_getElem_cons hlen, serialTransfer_write_hit hcur hhit hsa, storeAfterHits_write hdir,
      movedAfterHits_write hdir, List.drop_eq_getElem_cons hlen, ← haddr]
    rfl

theorem HasData.afterHits {c : Nat} (h : HasData x) (hc : c ≤ x.rem) : HasData (x.afterHits s c) := fun hdir => by
  rw [afterHits_data, afterHits_done, afterHits_rem, h hdir]
  omega

/-- The byte-serial form moves a run of `HIT`s as the engine does: byte by byte. -/
theorem serialRest_moveHits {c : Nat} (h : s.fsm = .lookup x) (hp : s.params.Legal) (ht : tableOk s.params s.pt = true)
    (hdata : HasData x) (hc : c ≤ x.rem) (hhits : allHits s.params s.pt x.cur c = true) :
    serialRest (moveHits s x c) (x.afterHits s c) = serialRest s x := by
  induction c with
  | zero => rw [moveHits_zero h, afterHits_zero]
  | succ c ih =>
    obtain ⟨hfirst, hlast⟩ := allHits_add.1 hhits
    have hrest := ih (Nat.le_of_succ_le hc) hfirst
    have hone := serialRest_moveHits_one (s := moveHits s x c) (x := x.afterHits s c) hp ht
      (hdata.afterHits (Nat.le_of_succ_le hc)) (by rw [afterHits_rem]; omega) hlast
    rw [moveHits_moveHits, afterHits_moveHits] at hone
    rw [hone, hrest]

end

/-! ## How the byte-serial form ends (R139, R201) -/

section
variable {s s' : State} {x y : Xfer}

/-- `DONE` reads of the registers only what it is to send, the bytes moved and how many are left. -/
theorem doneStep_congr (hs : { s with fsm := .idle } = { s' with fsm := .idle }) (hwant : x.want = y.want)
    (hmoved : x.moved = y.moved) (hrem : x.rem = y.rem) : doneStep s x = doneStep s' y := by
  have hx : doneStep s x = doneStep { s with fsm := .idle } x := rfl
  have hy : doneStep s' y = doneStep { s' with fsm := .idle } y := rfl
  rw [hx, hy, hs]
  simp only [doneStep, hwant, hmoved, hrem]

theorem afterFault_congr {f : Nat} (hs : { s with fsm := .idle } = { s' with fsm := .idle }) (hdir : x.dir = y.dir)
    (hwant : x.want = y.want) (hmoved : x.moved = y.moved) (hrem : x.rem = y.rem) :
    afterFault s x f = afterFault s' y f := by
  obtain ⟨hparams, hpt, hstore, -, htrace, hrefused, hresponses, hinput, hdraws, hended⟩ := (State.mk.injEq ..).mp hs
  have hreaction : nextReaction s = nextReaction s' := by rw [nextReaction, nextReaction, hparams, htrace]
  have hdone := doneStep_congr (s := { s with trace := s.trace ++ [⟨f, x.dir⟩] })
    (s' := { s' with trace := s'.trace ++ [⟨f, y.dir⟩] })
    (by rw [hparams, hpt, hstore, htrace, hrefused, hresponses, hinput, hdraws, hended, hdir]) hwant hmoved hrem
  simp only [afterFault, hreaction, hdone]
  rw [hparams, hpt, hstore, htrace, hrefused, hresponses, hinput, hdraws, hdir]

/-- What follows the byte-serial form's fault is what follows the engine's (R139, R201). -/
theorem finishSerial_fault {dir : AccessKind} {want : Want} {store : Memory} {moved : List Byte} {rem a : Nat} :
    finishSerial s dir want (.stopped store moved rem (some a)) =
      afterFault { s with store := store } ⟨dir, 0, 0, 0, 0, rem, moved, [], want⟩ a := by
  cases hreaction : nextReaction { s with store := store } with
  | returns | endsSystem | issuesRequest => simp only [finishSerial, raiseAccessFault, afterFault, hreaction] <;> rfl

end

/-! ## The faults of a request and of a step (R144, R239) -/

/-- In a good state only a copy could fault, and it does not. -/
theorem exec_not_fault {s : State} {i : Instr} {f : Fault} (hinv : s.Inv) : exec i s ≠ .fault f := by
  intro h
  obtain ⟨-, hi⟩ := exec_eq_fault h
  obtain ⟨r, hr⟩ | ⟨-, hstart, -, haccept⟩ := exec_refused_or_accepted hi s
  · cases h.symm.trans hr
  · exact transfer_not_fault hinv.legal hinv.table hstart.le (haccept.symm.trans h)

theorem deviceUpdate_not_fault {s : State} {sa : Nat} {bs : List Byte} {f : Fault} : deviceUpdate sa bs s ≠ .fault f := by
  intro h
  rw [deviceUpdate, whenIdle] at h
  split_ifs at h

/-- All that a step can fault by: the end of the system, a phase or a request. -/
theorem step_eq_fault {s : State} {f : Fault} (h : step s = .fault f) : (f = .systemEnded ∧ s.ended = true) ∨
    (s.fsm ≠ .idle ∧ fsmStep s = .fault f) ∨ ∃ i rest, exec i { s with input := rest } = .fault f := by
  unfold step at h
  split_ifs at h with hrefused hended
  · cases h
    exact .inl ⟨rfl, hended⟩
  · cases hin : s.input with
    | nil =>
      simp only [fetch, hin] at h
      by_cases hidle : s.fsm = .idle
      · simp [hidle] at h
      · have hbusy : s.fsm.isIdle = false := Bool.eq_false_iff.2 (mt (isIdle_iff _).1 hidle)
        simp only [hbusy] at h
        exact .inr (.inl ⟨hidle, h⟩)
    | cons a rest =>
      obtain ⟨inp, b⟩ := a
      cases inp with
      | update sa bs =>
        rw [fetch_update hin] at h
        cases hnext : overlapsNext rest with
        | true => simp [hnext] at h
        | false =>
          simp only [hnext] at h
          exact absurd h deviceUpdate_not_fault
      | request r =>
        cases hdec : decode s.params r with
        | error e => simp [fetch_request_error hin hdec] at h
        | ok i =>
          rw [fetch_request_ok hin hdec] at h
          cases hnext : overlapsNext rest with
          | true => simp [hnext] at h
          | false =>
            simp only [hnext] at h
            exact .inr (.inr ⟨i, rest, h⟩)

/-! ## The statements -/

/-- Settles O23: both forms move the same `HIT`s, and end alike where no byte is left, at TOP and at a fault. -/
theorem engineIsByteSerial : Obligations.EngineIsByteSerial := by
  intro s dir start cnt data want hinv hstart hlen
  have hdata : HasData (startXfer dir start cnt data want) := fun hdir => by
    rw [startXfer, hlen hdir, Nat.zero_add]
  have hserial : ∀ c, c ≤ cnt → allHits s.params s.pt start c = true →
      serialTransfer s.params s.pt dir cnt start data s.store [] =
        serialRest (movedState s dir start cnt data want c) (movedXfer s dir start cnt data want c) := fun c hc hhits =>
    (serialRest_moveHits (startTransfer_fsm s dir start cnt data want) hinv.legal hinv.table hdata hc hhits).symm
  obtain ⟨hhits, hrun⟩ | ⟨c, hc, hhits, htop, hrun⟩ | ⟨c, f, hc, hhits, hfault, hrun⟩ :=
    transfer_cases hinv.legal hinv.table dir cnt data want hstart.le
  · rw [hrun, hserial cnt le_rfl hhits, serialRest_of_rem_zero (Nat.sub_self cnt), finishSerial]
    exact congrArg _ (doneStep_congr rfl rfl rfl (Nat.sub_self cnt))
  · have hrem : cnt - c ≠ 0 := by omega
    rw [hrun, hserial c hc.le hhits, serialRest_of_top hrem htop, finishSerial]
  · obtain ⟨hcur, hmiss, rfl⟩ := faultsAt_iff.1 hfault
    have hrem : cnt - c ≠ 0 := by omega
    rw [hrun, hserial c hc.le hhits, serialRest_of_fault hrem hcur hmiss, finishSerial_fault]
    exact afterFault_congr rfl rfl rfl rfl rfl

/-- Settles O26: no request faults, and a step faults itself only in a system that has ended. -/
theorem goodStatesDoNotFault : Obligations.GoodStatesDoNotFault := by
  intro s hinv
  refine ⟨fun i f => exec_not_fault hinv, fun f h => ?_⟩
  obtain hended | ⟨hbusy, -⟩ | ⟨i, rest, hrest⟩ := step_eq_fault h
  · exact hended
  · exact absurd hinv.idle hbusy
  · exact absurd hrest (exec_not_fault (hinv.takeInput rest))

end Sys2Proof.Machine
end

section
/-! SUPPORT. The outcome of each of the ten transfers (R140, R142, R162, R166): its bytes moved, its event, and what `DONE`
sends, with the statements about `READ`, `WRITE` and the scalar accessors. -/

namespace Sys2Proof.Machine

/-! ## What a request has moved and emitted -/

section
variable {s t : State} {i : Instr} {k f : Nat}

/-- The state with the first `k` bytes of a request moved: only a write has changed the store (R140, R142). -/
def State.movedBy (s : State) (i : Instr) (k : Nat) : State :=
  { s with store := storeThrough s.params s.pt s.store (moveRange i).1 ((dataOf s.params.scalarOrder i).take k) }

/-- The state with the event of the request's fault emitted too (R193). -/
def State.faultedBy (s : State) (i : Instr) (k f : Nat) : State :=
  { s.movedBy i k with trace := s.trace ++ [⟨f, accessKindOf i⟩] }

/-- The registers then. -/
def answerXfer (s : State) (i : Instr) (k : Nat) : Xfer :=
  movedXfer s (accessKindOf i) (moveRange i).1 (moveRange i).2 (dataOf s.params.scalarOrder i) (wantOf i) k

@[simp] theorem answerXfer_dir : (answerXfer s i k).dir = accessKindOf i := rfl
@[simp] theorem answerXfer_rem : (answerXfer s i k).rem = (moveRange i).2 - k := rfl

theorem answerXfer_moved_read (hw : isWrite i = false) : (answerXfer s i k).moved = s.busBytes (moveRange i).1 k :=
  (movedAfterHits_read (accessKindOf_read hw)).trans (List.nil_append _)

/-- The state of the engine then. -/
def answerState (s : State) (i : Instr) (k : Nat) : State :=
  movedState s (accessKindOf i) (moveRange i).1 (moveRange i).2 (dataOf s.params.scalarOrder i) (wantOf i) k

/-- What the engine has moved is what the request has (R130). -/
theorem answerState_store (s : State) (i : Instr) (k : Nat) : (answerState s i k).store = (s.movedBy i k).store := by
  cases hw : isWrite i with
  | false =>
    rw [State.movedBy, dataOf_of_not_write hw, List.take_nil, storeThrough]
    exact storeAfterHits_read (accessKindOf_read hw)
  | true => exact storeAfterHits_write (accessKindOf_write hw)

theorem answerState_idle (s : State) (i : Instr) (k : Nat) :
    { answerState s i k with fsm := .idle } = { s.movedBy i k with fsm := .idle } :=
  congrArg (fun m => { s with store := m, fsm := .idle }) (answerState_store s i k)

/-! ## The outcome of a request that moves bytes -/

section
variable (hinv : s.Inv) (hi : isTransfer i = true) (hfits : valueFits i = true)
include hinv hi hfits

/-- A request of `HIT`s only moves its bytes and answers. -/
theorem exec_of_hits (hstart : (moveRange i).1 < s.params.top)
    (hhits : allHits s.params s.pt (moveRange i).1 (moveRange i).2 = true) :
    exec i s = .next (doneStep (s.movedBy i (moveRange i).2) (answerXfer s i (moveRange i).2)) := by
  rw [exec_of_accepted hinv.idle hi hstart hfits, transferOf, transfer_of_hits hinv.legal hinv.table hhits]
  exact congrArg _ (doneStep_congr (answerState_idle s i _) rfl rfl rfl)

variable (hk : k < (moveRange i).2) (hhits : allHits s.params s.pt (moveRange i).1 k = true)
  (hfault : faultsAt s.params s.pt ((moveRange i).1 + k) f = true)
include hk hhits hfault

/-- A request whose byte `k` is the first that faults moves the bytes before it. -/
theorem exec_of_fault : exec i s = afterFault (s.movedBy i k) (answerXfer s i k) f := by
  obtain ⟨hcur, -, -⟩ := faultsAt_iff.1 hfault
  rw [exec_of_accepted hinv.idle hi (by omega) hfits, transferOf, transfer_of_fault hinv.legal hinv.table hk hhits hfault]
  exact afterFault_congr (answerState_idle s i k) rfl rfl rfl rfl

/-- The notifier returns: the request answers what it has moved, with one event (R193, R201). -/
theorem exec_of_fault_returns (hreaction : nextReaction s = .returns) :
    exec i s = .next (doneStep (s.faultedBy i k f) (answerXfer s i k)) := by
  rw [exec_of_fault hinv hi hfits hk hhits hfault, afterFault_returns (s := s.movedBy i k) hreaction]
  rfl

end

/-! ## What `DONE` sends, of a machine that has not ended (R87, R201) -/

section
variable {x : Xfer} (hidle : s.fsm = .idle) (hended : s.ended = false)
include hidle hended

theorem doneStep_completion_idle (hwant : x.want = .completion) : doneStep s x = s.respond .completion := by
  rw [doneStep_completion hended hwant, ← hidle]

theorem doneStep_bytes_idle (hwant : x.want = .bytes) :
    doneStep s x = s.respond (.bytes (readResponse x.moved x.rem)) := by
  rw [doneStep, if_neg (Bool.eq_false_iff.1 hended)]
  simp only [hwant]
  rw [← hidle]

theorem doneStep_value_idle {w : Width} (hwant : x.want = .value w) : doneStep s x =
    { s.respond (.value w (assembleValue s.params.scalarOrder w (x.moved ++ draws s.drawCount x.rem))) with
      drawCount := s.drawCount + x.rem } := by
  rw [doneStep, if_neg (Bool.eq_false_iff.1 hended)]
  simp only [hwant]
  rw [← hidle]

end

end

/-! ## The scalar accessors by their width (R160) -/

section
variable (w : Width) (a : Field) (dw : DataWord) (o : ScalarOrder)

@[simp] theorem isTransfer_readN : isTransfer (.readN w a) = true := by cases w <;> rfl
@[simp] theorem isTransfer_writeN : isTransfer (.writeN w a dw) = true := by cases w <;> rfl
@[simp] theorem moveRange_readN : moveRange (.readN w a) = (a.toNat, w.bytes) := by cases w <;> rfl
@[simp] theorem moveRange_writeN : moveRange (.writeN w a dw) = (a.toNat, w.bytes) := by cases w <;> rfl
@[simp] theorem isWrite_readN : isWrite (.readN w a) = false := by cases w <;> rfl
@[simp] theorem isWrite_writeN : isWrite (.writeN w a dw) = true := by cases w <;> rfl
@[simp] theorem wantOf_readN : wantOf (.readN w a) = .value w := by cases w <;> rfl
@[simp] theorem wantOf_writeN : wantOf (.writeN w a dw) = .completion := by cases w <;> rfl
@[simp] theorem dataOf_writeN : dataOf o (.writeN w a dw) = splitValue o w dw := by cases w <;> rfl
@[simp] theorem valueFits_readN : valueFits (.readN w a) = true := by cases w <;> rfl
@[simp] theorem valueFits_writeN : valueFits (.writeN w a dw) = w.fits dw := by cases w <;> rfl

end

/-! ## Bytes over the bus -/

section
variable {s : State} {i : Instr} {k : Nat}

@[simp] theorem busBytes_length (s : State) (a n : Nat) : (s.busBytes a n).length = n := by
  rw [State.busBytes, List.length_map, List.length_range]

theorem getElem_busBytes {a n j : Nat} (hj : j < (s.busBytes a n).length) : (s.busBytes a n)[j] = s.busByte (a + j) := by
  simp only [State.busBytes, List.getElem_map, List.getElem_range]

@[simp] theorem draws_length (c n : Nat) : (draws c n).length = n := by
  rw [draws, List.length_map, List.length_range]

theorem getElem_draws {c n j : Nat} (hj : j < (draws c n).length) : (draws c n)[j] = Config.draw (c + j) := by
  simp only [draws, List.getElem_map, List.getElem_range]

/-- A request that writes nothing leaves the store as it is (R140). -/
theorem movedBy_of_not_write (hw : isWrite i = false) : s.movedBy i k = s := by
  rw [State.movedBy, dataOf_of_not_write hw, List.take_nil, storeThrough]

/-- The value of a scalar in the order `little` has the bytes given, lowest first (R161). -/
theorem extractLsb'_assembleValue {w : Width} {bs : List Byte} {j : Nat} (hlen : bs.length = w.bytes) (hj : j < bs.length) :
    (assembleValue .little w bs).extractLsb' (8 * j) 8 = bs[j] :=
  extractLsb'_leNat hj (by rw [hlen, width_bits_eq])

end

/-! ## `READ` and `WRITE` -/

section
variable {addr cnt : Field} {data : List Byte} {s : State}

/-- R140: a `READ` of `HIT`s only. -/
theorem exec_read_of_hits (hinv : s.Inv) (hended : s.ended = false) (haddr : addr.toNat < s.params.top)
    (hhits : allHits s.params s.pt addr.toNat cnt.toNat = true) :
    exec (.read addr cnt) s = .next (s.respond (.bytes ((s.busBytes addr.toNat cnt.toNat).map some))) := by
  have hmoved : s.movedBy (.read addr cnt) cnt.toNat = s := movedBy_of_not_write rfl
  have hbytes : (answerXfer s (.read addr cnt) cnt.toNat).moved = s.busBytes addr.toNat cnt.toNat :=
    answerXfer_moved_read rfl
  have hrem : (answerXfer s (.read addr cnt) cnt.toNat).rem = 0 := Nat.sub_self _
  have hexec := exec_of_hits (i := .read addr cnt) hinv rfl rfl haddr hhits
  rw [moveRange, hmoved, doneStep_bytes_idle hinv.idle hended rfl, hbytes, hrem, readResponse, List.replicate_zero,
    List.append_nil] at hexec
  exact hexec

/-- R142: a `WRITE` to `HIT`s only. -/
theorem exec_write_of_hits (hinv : s.Inv) (hended : s.ended = false) (haddr : addr.toNat < s.params.top)
    (hhits : allHits s.params s.pt addr.toNat data.length = true) :
    exec (.write addr data) s = .next (s.afterWrite addr.toNat data) := by
  have hexec := exec_of_hits (i := .write addr data) hinv rfl rfl haddr hhits
  rw [doneStep_completion_idle (s := s.movedBy _ _) hinv.idle hended rfl, State.movedBy, dataOf, moveRange,
    List.take_length] at hexec
  exact hexec

end

/-- The requester keeps its old bytes where the response has `None` (R140). -/
theorem applyRead_none (rem : Nat) (dst : List Byte) : applyRead (List.replicate rem none) dst = dst := by
  induction rem generalizing dst with
  | zero => cases dst <;> rfl
  | succ rem ih =>
    cases dst with
    | nil => rfl
    | cons d dst => exact congrArg (d :: ·) (ih dst)

/-! ## The statements -/

/-- Settles O33: all its bytes move, and none is left. -/
theorem readAnswersMappedBytes : Obligations.ReadAnswersMappedBytes :=
  fun _ _ _ hinv hended haddr hhits => exec_read_of_hits hinv hended haddr hhits

/-- Settles O37: all its bytes move. -/
theorem writeStoresThroughMappings : Obligations.WriteStoresThroughMappings :=
  fun _ _ _ hinv hended haddr hhits => exec_write_of_hits hinv hended haddr hhits

/-- Settles O34: the bytes before the fault, and `None` for the others. -/
theorem readStopsAtFault : Obligations.ReadStopsAtFault := by
  intro addr cnt s k f hinv hended hk hhits hfault hreaction
  have hbytes : (answerXfer s (.read addr cnt) k).moved = s.busBytes addr.toNat k := answerXfer_moved_read rfl
  have hmoved : s.movedBy (.read addr cnt) k = s := movedBy_of_not_write rfl
  rw [exec_of_fault_returns (i := .read addr cnt) hinv rfl rfl hk hhits hfault hreaction,
    doneStep_bytes_idle (s := s.faultedBy _ k f) hinv.idle hended rfl, hbytes, State.faultedBy, hmoved, answerXfer_rem,
    readResponse]
  rfl

/-- Settles O38: the data before the fault, and a completion. -/
theorem writeStopsAtFault : Obligations.WriteStopsAtFault := by
  intro addr data s k f hinv hended hk hhits hfault hreaction
  rw [exec_of_fault_returns (i := .write addr data) hinv rfl rfl hk hhits hfault hreaction,
    doneStep_completion_idle (s := s.faultedBy _ k f) hinv.idle hended rfl]
  rfl

/-- Settles O35: with no byte to move the engine looks nothing up. -/
theorem countZeroMovesNothing : Obligations.CountZeroMovesNothing := by
  intro addr s hidle hended haddr
  have hzero : ∀ dir data want, transfer dir addr.toNat 0 data want s =
      .next (doneStep s (startXfer dir addr.toNat 0 data want)) := fun dir data want =>
    runFsm_rem_zero (startTransfer_fsm s dir addr.toNat 0 data want) rfl
  have hread := exec_of_accepted (i := .read addr 0) hidle rfl haddr rfl
  have hwrite := exec_of_accepted (i := .write addr []) hidle rfl haddr rfl
  refine ⟨hread.trans ((hzero ..).trans ?_), hwrite.trans ((hzero ..).trans ?_)⟩
  · rw [doneStep_bytes_idle hidle hended rfl]
    rfl
  · rw [doneStep_completion_idle hidle hended rfl]
    rfl

/-- Settles O29: the notifier's own request comes while the transfer is in progress. -/
theorem reentrantRequestRefused : Obligations.ReentrantRequestRefused := by
  intro i s k f hinv hi hwf hk hhits hfault hreaction
  rw [exec_of_fault hinv hi (valueFits_of_wellFormed hwf) hk hhits hfault,
    afterFault_issuesRequest (s := s.movedBy i k) hreaction]

/-- Settles O30: nothing follows the event, no response and no step. -/
theorem notifierEndsTheSystem : Obligations.NotifierEndsTheSystem := by
  intro i s k f hinv hrefused hi hwf hk hhits hfault hreaction
  refine ⟨_, (exec_of_fault hinv hi (valueFits_of_wellFormed hwf) hk hhits hfault).trans
    (afterFault_endsSystem (s := s.movedBy i k) hreaction), ?_, step_ended hrefused rfl⟩
  rw [State.movedBy, answerXfer_dir, ← hinv.idle]

/-- Settles O46: the bytes moved are the low ones, and the draws stand above them. -/
theorem scalarReadDrawsUnmovedBytes : Obligations.ScalarReadDrawsUnmovedBytes := by
  intro w addr s k f hinv hended horder hk hhits hfault hreaction
  have hbytes : (answerXfer s (.readN w addr) k).moved = s.busBytes addr.toNat k := by
    rw [answerXfer_moved_read (isWrite_readN w addr), moveRange_readN]
  have hmoved : s.movedBy (.readN w addr) k = s := movedBy_of_not_write (isWrite_readN w addr)
  have hexec := exec_of_fault_returns (i := .readN w addr) hinv (isTransfer_readN w addr) (valueFits_readN w addr)
    (by rwa [moveRange_readN]) (by rwa [moveRange_readN]) (by rwa [moveRange_readN]) hreaction
  rw [doneStep_value_idle (s := s.faultedBy _ k f) (w := w) hinv.idle hended (wantOf_readN w addr), hbytes,
    State.faultedBy, hmoved, answerXfer_rem, moveRange_readN, accessKindOf_read (isWrite_readN w addr)] at hexec
  have hlen : (s.busBytes addr.toNat k ++ draws s.drawCount (w.bytes - k)).length = w.bytes := by
    rw [List.length_append, busBytes_length, draws_length]
    omega
  refine ⟨_, hexec, fun j hj => ?_, fun j hkj hj => ?_⟩
  · rw [horder, extractLsb'_assembleValue hlen (by omega), List.getElem_append_left (by rwa [busBytes_length]),
      getElem_busBytes]
  · rw [horder, extractLsb'_assembleValue hlen (by omega), List.getElem_append_right (by rwa [busBytes_length]),
      getElem_draws, busBytes_length]

/-- Settles O48: the first `k` bytes of the value, lowest first, are its low `k` bytes. -/
theorem scalarWriteKeepsLowBytes : Obligations.ScalarWriteKeepsLowBytes := by
  intro w addr dw s k f hinv hended horder hfits hk hhits hfault hreaction
  have hlow : (splitValue .little w dw).take k = (List.range k).map fun j => dw.extractLsb' (8 * j) 8 := by
    rw [splitValue, orderBytes, ← List.map_take, List.take_range, Nat.min_eq_left hk.le]
    rfl
  rw [exec_of_fault_returns (i := .writeN w addr dw) hinv (isTransfer_writeN w addr dw)
      (by rwa [valueFits_writeN]) (by rwa [moveRange_writeN]) (by rwa [moveRange_writeN]) (by rwa [moveRange_writeN])
      hreaction,
    doneStep_completion_idle (s := s.faultedBy _ k f) hinv.idle hended (wantOf_writeN w addr dw), State.faultedBy,
    State.movedBy, moveRange_writeN, dataOf_writeN, horder, hlow, accessKindOf_write (isWrite_writeN w addr dw)]
  rfl

/-- Settles O55: every slot is `EMPTY`, so the first lookup faults at its own address. -/
theorem freshMachineFaultsAtStart : Obligations.FreshMachineFaultsAtStart := by
  intro i p hp hi hwf hcount hreaction
  have hstart := moveRange_start_lt_top hi hwf
  have hclass : xlate p (State.construct p).pt (moveRange i).1 = .unmapped :=
    xlate_of_slotAt_none (slotAt_replicate ..)
  have hfault : faultsAt p (State.construct p).pt ((moveRange i).1 + 0) (moveRange i).1 = true :=
    faultsAt_iff.2 ⟨hstart, by rw [Nat.add_zero, hclass]; rfl, by rw [Nat.add_zero, hclass, faultAddr_unmapped]⟩
  refine ⟨_, exec_of_fault_returns (inv_construct hp) hi (valueFits_of_wellFormed hwf) hcount (allHits_zero hstart.le)
    hfault hreaction, by rw [doneStep_trace]; rfl, by rw [doneStep_store]; rfl⟩

/-- Settles O36: along the destination, byte by byte of the response. -/
theorem destinationKeepsUnreadBytes : Obligations.DestinationKeepsUnreadBytes := by
  intro moved dst rem hlen
  induction moved generalizing dst with
  | nil => exact applyRead_none rem dst
  | cons b moved ih =>
    cases dst with
    | nil => cases Nat.not_succ_le_zero _ ((Nat.le_add_right _ _).trans hlen)
    | cons d dst =>
      simp only [List.length_cons] at hlen
      exact congrArg (b :: ·) (ih dst (by omega))

end Sys2Proof.Machine
end

section
/-! SUPPORT. What a write leaves in the store (R69, R142), the bytes of one mapping (R56) and of two side by side, with the
statements about reads after writes and at the edges of a mapping. -/

namespace Sys2Proof.Machine

/-! ## The store after a write (R33, R69, R142) -/

section
variable {p : Params} {pt : List Slot} {m : Memory} {a n j : Nat}

/-- The store address of a `HIT`. -/
theorem storeAddr_eq_storeAddrOf (h : (xlate p pt a).storeAddr.isSome = true) :
    (xlate p pt a).storeAddr = some (storeAddrOf p pt a) := by
  obtain ⟨sa, hsa⟩ := Option.isSome_iff_exists.1 h
  rw [storeAddrOf, hsa, Option.getD_some]

/-- A byte stays in the store where no later byte of the write goes to its address (R69). -/
theorem read_storeThrough_last (h : risingFrom 0 m = true) {bs : List Byte} {b : Byte} (hb : bs[j]? = some b)
    (hlast : ∀ j', j < j' → j' < bs.length → storeAddrOf p pt (a + j') ≠ storeAddrOf p pt (a + j)) :
    Memory.read p.store0 (storeThrough p pt m a bs) (storeAddrOf p pt (a + j)) = b := by
  induction bs generalizing m a j with
  | nil => cases hb
  | cons v bs ih =>
    have hm := risingFrom_write (z := p.store0) h (storeAddrOf p pt a) v
    rw [storeThrough]
    cases j with
    | zero =>
      cases hb
      have hne : ∀ j, j < bs.length → storeAddrOf p pt (a + 1 + j) ≠ storeAddrOf p pt a := fun j hj => by
        rw [Nat.add_assoc, Nat.add_comm 1 j]
        exact hlast (j + 1) (Nat.succ_pos j) (Nat.succ_lt_succ hj)
      exact (read_storeThrough_of_ne hm hne).trans ((read_write h _ _ b).trans (if_pos rfl))
    | succ j =>
      have hshift : ∀ k, a + 1 + k = a + (k + 1) := fun k => by omega
      rw [← hshift j]
      refine ih hm hb fun j' hj hj' => ?_
      rw [hshift j', hshift j]
      exact hlast (j' + 1) (Nat.succ_lt_succ hj) (Nat.succ_lt_succ hj')

/-! ## The bytes of a mapping (R56) -/

/-- The store addresses of an extent are all different. -/
theorem noAliases_of_mapped {m : Mapping} (hp : p.Legal) (hm : m.mapped p pt = true) (hbase : m.base.toNat ≤ a)
    (hstop : a + n ≤ m.stop) : noAliases p pt a n = true := by
  have haddr : ∀ j, j < n → storeAddrOf p pt (a + j) = m.ptr.toNat + (a + j - m.base.toNat) := fun j hj =>
    storeAddrOf_of_mapped hp hm (covers_iff.2 ⟨by omega, by omega⟩)
  refine decide_eq_true (List.Nodup.map_on (fun j hj k hk hjk => ?_) List.nodup_range)
  rw [haddr j (List.mem_range.1 hj), haddr k (List.mem_range.1 hk)] at hjk
  omega

/-- A mapping reads as its buffer. -/
theorem busBytes_of_mapped {s : State} {m : Mapping} (hp : s.params.Legal) (hm : m.mapped s.params s.pt = true) :
    s.busBytes m.base.toNat m.len.toNat = Memory.readBytes s.params.store0 s.store m.ptr.toNat m.len.toNat := by
  refine busBytes_eq_readBytes fun j hj => ?_
  have hstop : m.stop = m.base.toNat + m.len.toNat := rfl
  rw [storeAddrOf_of_mapped hp hm (covers_iff.2 ⟨Nat.le_add_right _ _, by omega⟩), Nat.add_sub_cancel_left]

theorem allHits_mapping {m : Mapping} (hp : p.Legal) (hm : m.mapped p pt = true) :
    allHits p pt m.base.toNat m.len.toNat = true :=
  allHits_of_mapped hp hm le_rfl le_rfl

theorem base_lt_top {m : Mapping} (hm : m.mapped p pt = true) : m.base.toNat < p.top := by
  obtain ⟨hlen, htop, -⟩ := fits_iff.1 (mapped_iff.1 hm).1
  have hstop : m.stop = m.base.toNat + m.len.toNat := rfl
  omega

end

/-- A byte just written, where the store addresses written are all different (R61, R69). -/
theorem busByte_afterWrite {s : State} {a j : Nat} {bs : List Byte} (hstore : Memory.wf s.params s.store = true)
    (halias : noAliases s.params s.pt a bs.length = true) (hj : j < bs.length) :
    (s.afterWrite a bs).busByte (a + j) = bs[j] := by
  have hget := List.getElem_of_eq (busBytes_afterWrite hstore halias) (i := j) (by rwa [busBytes_length])
  rwa [getElem_busBytes] at hget

/-- Byte `k` of a data word (R165). -/
theorem getElem_splitValue_little {w : Width} {dw : DataWord} {k : Nat} (hk : k < (splitValue .little w dw).length) :
    (splitValue .little w dw)[k] = dw.extractLsb' (8 * k) 8 := by
  simp only [splitValue, orderBytes, List.getElem_map, List.getElem_range, wordByte]

/-- A value of one byte is that byte (R161, R170). -/
theorem assembleValue_w8 (b : Byte) : assembleValue .little .w8 [b] = b := by
  rw [assembleValue, orderBytes, leNat, leNat, Nat.mul_zero, Nat.add_zero]
  exact (BitVec.ofNat_toNat 8 b).trans (BitVec.setWidth_eq b)

/-! ## The statements -/

/-- Settles O39: a write has moved its first bytes, all of them `HIT`s. -/
theorem writesTouchOnlyTheirBytes : Obligations.WritesTouchOnlyTheirBytes := by
  intro i s t b hinv h hout
  obtain ⟨hparams, -, -, -, -, hread, -⟩ := frameOfEveryRequest i s t h
  rw [storeRead, storeRead, hparams]
  cases hw : isWrite i with
  | false => rw [hread hw]
  | true =>
    obtain ⟨_, _, _, _, rfl, -⟩ | ⟨rfl, -, -⟩ | ⟨-, -, hstart, -, hrun⟩ := exec_eq_next h
    · cases hw
    · cases hw
    · obtain ⟨c, hc, hhits, hstore⟩ := transfer_store hinv.legal hinv.table hstart.le hrun
      have hmoved : t.store = (s.movedBy i c).store := hstore.trans (answerState_store s i c)
      rw [hmoved]
      refine read_storeThrough_of_ne (wf_iff.1 hinv.store).1 fun j hj heq => ?_
      have hjc : j < c := hj.trans_le (List.length_take_le ..)
      exact hout hw j (by omega) (heq ▸ storeAddr_eq_storeAddrOf ((allHits_iff.1 hhits).2 j hjc))

/-- Settles O44: no byte after byte `j` goes to its store address. -/
theorem higherAliasWins : Obligations.HigherAliasWins := by
  intro addr data s t j b hinv hhits h hb hlast
  obtain ⟨-, hstart, -⟩ := acceptAt_eq_next h
  have hexec := exec_of_hits (i := .write addr data) hinv rfl rfl hstart hhits
  cases h.symm.trans hexec
  have hstore : (s.movedBy (.write addr data) data.length).store =
      storeThrough s.params s.pt s.store addr.toNat data := by
    rw [State.movedBy, dataOf, moveRange, List.take_length]
  rw [storeRead, doneStep_store, doneStep_params]
  exact (congrArg (Memory.read s.params.store0 · _) hstore).trans
    (read_storeThrough_last (wf_iff.1 hinv.store).1 hb hlast)

/-- Settles O41: the store addresses of an extent are all different, so its bytes read back as written. -/
theorem writeThenReadRoundTrip : Obligations.WriteThenReadRoundTrip := by
  intro addr data s m hinv hended hlen hm hcov hend
  obtain ⟨hbase, haddr⟩ := covers_iff.1 hcov
  have htop : addr.toNat < s.params.top := haddr.trans_le (fits_iff.1 (mapped_iff.1 hm).1).2.1
  have hhits := allHits_of_mapped hinv.legal hm hbase hend
  have hcount : (BitVec.ofNat 32 data.length).toNat = data.length := Nat.mod_eq_of_lt hlen
  have hwrite := exec_write_of_hits hinv hended htop hhits
  have hread := exec_read_of_hits (cnt := BitVec.ofNat 32 data.length) (hinv.exec hwrite) hended htop
    (by rw [hcount]; exact hhits)
  rw [hcount, busBytes_afterWrite hinv.store (noAliases_of_mapped hinv.legal hm hbase hend)] at hread
  refine ⟨_, _, hwrite, hread, ?_, rfl⟩
  rw [respond_responses, afterWrite_responses, List.append_assoc, List.singleton_append]

/-- Settles O42: the read's bytes are those of the one mapping and then those of the other. -/
theorem adjacentMappingsConcatenate : Obligations.AdjacentMappingsConcatenate := by
  intro m m' cnt s hinv hended hm hm' hadjacent hcnt
  have hstop : m.base.toNat + m.len.toNat = m'.base.toNat := hadjacent.symm
  have hhits : allHits s.params s.pt m.base.toNat cnt.toNat = true := by
    rw [hcnt, allHits_add, hstop]
    exact ⟨allHits_mapping hinv.legal hm, allHits_mapping hinv.legal hm'⟩
  rw [exec_read_of_hits hinv hended (base_lt_top hm) hhits, hcnt, busBytes_add, hstop, busBytes_of_mapped hinv.legal hm,
    busBytes_of_mapped hinv.legal hm', State.respond]

/-- Settles O43: `base + len` is the first byte not moved, and the fault there reports it (R145). -/
theorem readOnePastMapping : Obligations.ReadOnePastMapping := by
  intro m cnt s hinv hended hm htop hnone hcnt hreaction
  have hlen := (fits_iff.1 (mapped_iff.1 hm).1).1
  have hhits := allHits_mapping hinv.legal hm
  have hmiss : (xlate s.params s.pt m.stop).storeAddr = none := by
    rw [← Option.not_isSome_iff_eq_none, isHit_iff hinv.legal hinv.table]
    rintro ⟨m', hm', hcov⟩
    rw [hnone m' hm'] at hcov
    cases hcov
  have hfault : faultsAt s.params s.pt (m.base.toNat + m.len.toNat) m.stop = true := by
    have hany := faultsAt_iff.2 ⟨htop, hmiss, rfl⟩
    have hsame := faultAfterProgressNamesFirstUnmoved _ _ _ _ _ hinv.legal hinv.table hlen hhits hany
    exact faultsAt_iff.2 ⟨htop, hmiss, hsame.symm⟩
  rw [readStopsAtFault m.base cnt s m.len.toNat m.stop hinv hended (by omega) hhits hfault hreaction,
    busBytes_of_mapped hinv.legal hm, hcnt, Nat.add_sub_cancel_left]
  rfl

/-- Settles O51: the byte read is byte `k` of the four written. -/
theorem byteReadSeesWordWrite : Obligations.ByteReadSeesWordWrite := by
  intro addr dw s k hinv hended horder hfits hhits halias hk
  have hwrite := scalarWrite_of_allHits (w := .w32) hinv.idle hended hinv.legal hinv.table hhits hfits
  rw [horder] at hwrite
  have hspace : s.params.top ≤ 2 ^ 32 := Nat.pow_le_pow_right (by decide) hinv.legal.width_le
  have haddr : (addr + BitVec.ofNat 32 k).toNat = addr.toNat + k := by
    have htop := (allHits_iff.1 hhits).1
    rw [BitVec.toNat_add, BitVec.toNat_ofNat]
    omega
  have hhit : allHits s.params s.pt (addr + BitVec.ofNat 32 k).toNat 1 = true := by
    have hcut : 4 = k + (1 + (3 - k)) := by omega
    rw [hcut, allHits_add, allHits_add, ← haddr] at hhits
    exact hhits.2.1
  have hread := scalarRead_of_allHits (w := .w8) (s := s.afterWrite addr.toNat (splitValue .little .w32 dw))
    hinv.idle hended hinv.legal hinv.table hhit
  have hlen : k < (splitValue .little .w32 dw).length := by rwa [splitValue_length]
  have hbyte := busByte_afterWrite hinv.store halias hlen
  rw [getElem_splitValue_little, ← haddr] at hbyte
  have hone : (s.afterWrite addr.toNat (splitValue .little .w32 dw)).busBytes (addr + BitVec.ofNat 32 k).toNat 1 =
      [dw.extractLsb' (8 * k) 8] := congrArg (fun b => [b]) hbyte
  refine ⟨_, _, hwrite, hread, ?_⟩
  rw [respond_responses, afterWrite_responses, afterWrite_params, horder, Width.bytes, hone, assembleValue_w8,
    List.append_assoc, List.singleton_append]

end Sys2Proof.Machine
end

section
/-! SUPPORT. Two runs of one request (R22, R196): with another notifier, and with other device identities in the table. One
simulation serves both, phase by phase. The statements about them. -/

namespace Sys2Proof.Machine

/-! ## Other device identities (R22) -/

section
variable {p : Params} {pt : List Slot} {g : DevId → DevId}

/-- The entry with another identity. -/
def Entry.relabel (g : DevId → DevId) (e : Entry) : Entry := { e with dev := g e.dev }

/-- The class of an address through such an entry. -/
def Xlate.relabel (g : DevId → DevId) : Xlate → Xlate
  | .hit e sa => .hit (e.relabel g) sa
  | .unmapped => .unmapped
  | .belowBase e => .belowBase (e.relabel g)
  | .beyondExtent e => .beyondExtent (e.relabel g)

@[simp] theorem storeAddr_relabel (c : Xlate) : (c.relabel g).storeAddr = c.storeAddr := by cases c <;> rfl

@[simp] theorem faultAddr_relabel (c : Xlate) (a : Nat) : (c.relabel g).faultAddr a = c.faultAddr a := by
  cases c <;> rfl

theorem relabel_id (c : Xlate) : c.relabel id = c := by cases c <;> rfl

theorem slotAt_relabelDevs (i : Nat) : slotAt (relabelDevs g pt) i = (slotAt pt i).map (Entry.relabel g) := by
  rw [slotAt, slotAt, relabelDevs, List.getElem?_map]
  cases pt[i]? <;> rfl

/-- An address keeps its class and its store address. -/
theorem xlate_relabelDevs (a : Nat) : xlate p (relabelDevs g pt) a = (xlate p pt a).relabel g := by
  cases hslot : slotAt pt (page p a) with
  | none =>
    have hslot' : slotAt (relabelDevs g pt) (page p a) = none := by rw [slotAt_relabelDevs, hslot, Option.map_none]
    rw [xlate_of_slotAt_none hslot, xlate_of_slotAt_none hslot', Xlate.relabel]
  | some e =>
    have hslot' : slotAt (relabelDevs g pt) (page p a) = some (e.relabel g) := by
      rw [slotAt_relabelDevs, hslot, Option.map_some]
    rcases Nat.lt_or_ge a e.base.toNat with hbelow | hbase
    · rw [xlate_of_lt_base hslot hbelow, xlate_of_lt_base hslot' hbelow, Xlate.relabel]
    · rcases Nat.lt_or_ge a e.stop with hin | hbeyond
      · rw [xlate_of_mem_extent hslot hbase hin, xlate_of_mem_extent hslot' hbase hin, Xlate.relabel]
        rfl
      · rw [xlate_of_stop_le hslot hbeyond, xlate_of_stop_le hslot' hbeyond, Xlate.relabel]

theorem spanFree_relabelDevs (m : Mapping) : spanFree p m (relabelDevs g pt) = spanFree p m pt := by
  simp only [spanFree, slotAt_relabelDevs, Option.isNone_map]

theorem dumpRecords_relabelDevs : dumpRecords (relabelDevs g pt) = dumpRecords pt := by
  rw [dumpRecords, relabelDevs, List.filterMap_map]
  refine List.filterMap_congr fun slot _ => ?_
  cases slot <;> rfl

end

/-! ## One phase of two runs -/

section
variable {s t u v : State} {x : Xfer} {l : List Reaction} {pt : List Slot}

/-- The same machine with another notifier and another table. -/
def State.rebind (s : State) (l : List Reaction) (pt : List Slot) : State :=
  { s with params := { s.params with notifier := l }, pt := pt }

theorem copyStep_rebind {c sa : Nat} (h : copyStep u x c sa = .next v) :
    copyStep (u.rebind l pt) x c sa = .next (v.rebind l pt) := by
  obtain ⟨hend, ⟨hdir, rfl⟩ | ⟨hdir, rfl⟩⟩ := copyStep_eq_next h
  · have hend' : ¬ (u.rebind l pt).params.storeSize < sa + c := Nat.not_lt.2 hend
    rw [copyStep, if_neg hend', hdir]
    rfl
  · have hend' : ¬ (u.rebind l pt).params.storeSize < sa + c := Nat.not_lt.2 hend
    rw [copyStep, if_neg hend', hdir]
    rfl

theorem doneStep_rebind : doneStep (u.rebind l pt) x = (doneStep u x).rebind l pt := by
  unfold doneStep
  by_cases hended : u.ended = true
  · have hended' : (u.rebind l pt).ended = true := hended
    rw [if_pos hended, if_pos hended']
    rfl
  · have hended' : ¬ (u.rebind l pt).ended = true := hended
    rw [if_neg hended, if_neg hended']
    cases x.want <;> rfl

theorem fsmStep_of_copy {c sa : Nat} (h : s.fsm = .copy x c sa) : fsmStep s = copyStep s x c sa := by
  rw [fsmStep, h]

/-- The first phase of a run that answers a next state, and the rest of the run. -/
theorem runFsm_succ_eq_next {n : Nat} (hbusy : s.fsm ≠ .idle) (h : runFsm (n + 1) s = .next t) :
    ∃ u, fsmStep s = .next u ∧ runFsm n u = .next t := by
  rw [runFsm_succ hbusy] at h
  split at h
  next u hu => exact ⟨u, hu, h⟩
  next => cases h
  next => cases h

/-- A phase does the same under another notifier and in a table where every address keeps its class, but for an access
fault, where it asks the notifier. -/
theorem fsmStep_rebind {g : DevId → DevId}
    (hclass : ∀ a, xlate u.params pt a = (xlate u.params u.pt a).relabel g) (h : fsmStep u = .next v) :
    fsmStep (u.rebind l pt) = .next (v.rebind l pt) ∨
    ∃ x f, raiseAccessFault u x f = .next v ∧ fsmStep (u.rebind l pt) = raiseAccessFault (u.rebind l pt) x f := by
  cases hf : u.fsm with
  | idle => rw [fsmStep, hf] at h; cases h
  | done x =>
    cases h.symm.trans (fsmStep_done hf)
    have hf' : (u.rebind l pt).fsm = .done x := hf
    exact .inl (by rw [fsmStep_done hf', doneStep_rebind])
  | copy x c sa =>
    have hf' : (u.rebind l pt).fsm = .copy x c sa := hf
    rw [fsmStep_of_copy hf] at h
    exact .inl (by rw [fsmStep_of_copy hf', copyStep_rebind h])
  | lookup x =>
    have hf' : (u.rebind l pt).fsm = .lookup x := hf
    by_cases hrem : x.rem = 0
    · cases h.symm.trans (fsmStep_lookup_of_rem_eq_zero hf hrem)
      exact .inl (fsmStep_lookup_of_rem_eq_zero hf' hrem)
    · rcases Nat.lt_or_ge x.cur u.params.top with hcur | htop
      · have hx : xlate (u.rebind l pt).params (u.rebind l pt).pt x.cur = (xlate u.params u.pt x.cur).relabel g :=
          hclass x.cur
        cases hmiss : (xlate u.params u.pt x.cur).storeAddr with
        | none =>
          have hfault := fsmStep_lookup_of_fault hf hrem hcur hmiss
          have hfault' := fsmStep_lookup_of_fault hf' hrem hcur (by rw [hx, storeAddr_relabel, hmiss])
          rw [hx, faultAddr_relabel] at hfault'
          exact .inr ⟨x, _, hfault.symm.trans h, hfault'⟩
        | some sa =>
          obtain ⟨e, sa, hhit⟩ := storeAddr_isSome_iff.1 (Option.isSome_of_eq_some hmiss)
          cases h.symm.trans (fsmStep_lookup_of_hit hf hrem hcur hhit)
          rw [hhit, Xlate.relabel] at hx
          have hhit' := fsmStep_lookup_of_hit hf' hrem hcur hx
          exact .inl hhit'
      · cases h.symm.trans (fsmStep_lookup_of_top_le hf hrem htop)

/-! ## Another notifier (R196) -/

/-- "the whole system ends" (R239): no phase goes back on it. -/
theorem Phase.ended (h : Phase u v) (hu : u.ended = true) : v.ended = true := by
  cases h with
  | finish | hit | copyRead | copyWrite => exact hu
  | fault x b hf hcur hended => exact hended hu
  | done x => rw [doneStep_ended]; exact hu

/-- A run that has not ended the system at its end has not before. -/
theorem ended_of_runFsm {n : Nat} (h : runFsm n u = .next t) (ht : t.ended = false) : u.ended = false := by
  have hkeeps : u.ended = true → t.ended = true :=
    (runFsm_induct (R := fun u v => u.ended = true → v.ended = true) (fun _ => id) (fun _ _ _ huv hvw => hvw ∘ huv)
      (fun _ _ hstep => (phase_of_fsmStep hstep).ended) h).1
  by_contra hu
  rw [hkeeps (by simpa using hu)] at ht
  cases ht

theorem fsmStep_withNotifier {v' : State} (h : fsmStep u = .next v) (h' : fsmStep (u.withNotifier l) = .next v')
    (hv : v.ended = false) (hv' : v'.ended = false) : v' = v.withNotifier l := by
  have hpt : v.pt = u.pt := (fsmStep_samePlace h).pt
  obtain hsame | ⟨x, f, hraise, hraise'⟩ := fsmStep_rebind (g := id) (l := l) (fun a => (relabel_id _).symm) h
  · cases h'.symm.trans hsame
    rw [← hpt]
    rfl
  · obtain ⟨hu, -⟩ := raiseAccessFault_eq_next hraise
    obtain ⟨hu', -⟩ := raiseAccessFault_eq_next (hraise'.symm.trans h')
    rw [hu, hu', hv, hv']
    rfl

/-- Two runs of the engine that do not end the system go the same way. -/
theorem runFsm_withNotifier {n : Nat} {t' : State} (h : runFsm n u = .next t)
    (h' : runFsm n (u.withNotifier l) = .next t') (ht : t.ended = false) (ht' : t'.ended = false) :
    t' = t.withNotifier l := by
  induction n generalizing u with
  | zero =>
    rw [runFsm] at h h'
    split_ifs at h h'
    cases h
    cases h'
    rfl
  | succ n ih =>
    by_cases hidle : u.fsm = .idle
    · rw [runFsm_idle hidle] at h
      rw [runFsm_idle (s := u.withNotifier l) hidle] at h'
      cases h
      cases h'
      rfl
    · obtain ⟨v, hv, hrun⟩ := runFsm_succ_eq_next hidle h
      obtain ⟨v', hv', hrun'⟩ := runFsm_succ_eq_next (s := u.withNotifier l) hidle h'
      have hsame := fsmStep_withNotifier hv hv' (ended_of_runFsm hrun ht) (ended_of_runFsm hrun' ht')
      subst hsame
      exact ih hrun hrun'

theorem transferOf_withNotifier {i : Instr} {t' : State} (h : transferOf i s = .next t)
    (h' : transferOf i (s.withNotifier l) = .next t') (ht : t.ended = false) (ht' : t'.ended = false) :
    t' = t.withNotifier l :=
  runFsm_withNotifier (u := startTransfer s _ _ _ _ _) h h' ht ht'

/-- `MAP` does not look at the notifier. -/
theorem execMap_withNotifier {dev : DevId} {addr len ptr : Field} {t' : State} (h : execMap dev addr len ptr s = .next t)
    (h' : execMap dev addr len ptr (s.withNotifier l) = .next t') : t' = t.withNotifier l := by
  obtain ⟨-, -, -, -, -, hcase⟩ := execMap_eq_next h
  obtain ⟨-, -, -, -, -, hcase'⟩ := execMap_eq_next h'
  have hspan : spanFree (s.withNotifier l).params (mappingOf (s.withNotifier l).params dev addr len ptr)
      (s.withNotifier l).pt = spanFree s.params (mappingOf s.params dev addr len ptr) s.pt := rfl
  rw [hspan] at hcase'
  obtain ⟨hfree, rfl⟩ | ⟨hfree, rfl⟩ := hcase
  · obtain ⟨-, rfl⟩ | ⟨hnot, -⟩ := hcase'
    · rfl
    · cases hfree.symm.trans hnot
  · obtain ⟨hnot, -⟩ | ⟨-, rfl⟩ := hcase'
    · cases hfree.symm.trans hnot
    · rfl

/-! ## Other device identities, over a whole request (R22) -/

/-- The same machine with other device identities in the table. -/
def State.relabel (g : DevId → DevId) (s : State) : State := { s with pt := relabelDevs g s.pt }

theorem raiseAccessFault_relabel {g : DevId → DevId} {f : Nat} (h : raiseAccessFault u x f = .next v) :
    raiseAccessFault (u.relabel g) x f = .next (v.relabel g) := by
  have hreaction : nextReaction (u.relabel g) = nextReaction u := rfl
  rw [raiseAccessFault, hreaction]
  rw [raiseAccessFault] at h
  cases hcase : nextReaction u with
  | returns | endsSystem =>
    simp only [hcase] at h ⊢
    cases h
    rfl
  | issuesRequest =>
    simp only [hcase] at h
    cases h

theorem fsmStep_relabel {g : DevId → DevId} (h : fsmStep u = .next v) :
    fsmStep (u.relabel g) = .next (v.relabel g) := by
  have hplace := fsmStep_samePlace h
  have hrebind : v.rebind u.params.notifier (relabelDevs g u.pt) = v.relabel g := by
    rw [State.relabel, hplace.pt, ← hplace.params]
    rfl
  obtain hsame | ⟨x, f, hraise, hraise'⟩ :=
    fsmStep_rebind (g := g) (l := u.params.notifier) (pt := relabelDevs g u.pt) (fun a => xlate_relabelDevs a) h
  · rw [hrebind] at hsame
    exact hsame
  · exact hraise'.trans (raiseAccessFault_relabel hraise)

theorem runFsm_relabel {g : DevId → DevId} {n : Nat} (h : runFsm n u = .next t) :
    runFsm n (u.relabel g) = .next (t.relabel g) := by
  induction n generalizing u with
  | zero =>
    rw [runFsm] at h
    split_ifs at h with hidle
    cases h
    exact if_pos hidle
  | succ n ih =>
    by_cases hidle : u.fsm = .idle
    · rw [runFsm_idle hidle] at h
      cases h
      exact runFsm_idle (s := t.relabel g) hidle
    · obtain ⟨v, hv, hrun⟩ := runFsm_succ_eq_next hidle h
      rw [runFsm_of_next (s := u.relabel g) hidle (fsmStep_relabel hv), ih hrun]

theorem transferOf_relabel {g : DevId → DevId} {i : Instr} (h : transferOf i s = .next t) :
    transferOf i (s.relabel g) = .next (t.relabel g) :=
  runFsm_relabel (u := startTransfer s _ _ _ _ _) h

end

/-! ## The statements -/

/-- Settles O31: only an access fault asks the notifier, and a notifier that returns changes nothing. -/
theorem notifierNeverChangesTheBlock : Obligations.NotifierNeverChangesTheBlock := by
  intro i s t t' l h h' ht ht'
  obtain ⟨dev, addr, len, ptr, rfl, hmap⟩ | ⟨rfl, -, rfl⟩ | ⟨hi, hidle, hstart, hfits, hrun⟩ := exec_eq_next h
  · exact execMap_withNotifier hmap h'
  · obtain ⟨-, rfl⟩ := execDump_eq_next h'
    rfl
  · rw [exec_of_accepted (s := s.withNotifier l) hidle hi hstart hfits] at h'
    exact transferOf_withNotifier hrun h' ht ht'

/-- Settles O32: every address keeps its class, and no record and no status has an identity in it. -/
theorem deviceIdentityIsNeverRead : Obligations.DeviceIdentityIsNeverRead := by
  intro g i s t h
  obtain ⟨dev, addr, len, ptr, rfl, hmap⟩ | ⟨rfl, hidle, rfl⟩ | ⟨hi, hidle, hstart, hfits, hrun⟩ := exec_eq_next h
  · obtain ⟨hidle, -, hlen, htop, hbuffer, ⟨hfree, rfl⟩ | ⟨hfree, rfl⟩⟩ := execMap_eq_next hmap
    · exact ⟨_, execMap_of_spanFree (s := s.relabel g) hidle hlen htop hbuffer
        ((spanFree_relabelDevs _).trans hfree), rfl, rfl, rfl, rfl⟩
    · exact ⟨_, execMap_of_spanFree_eq_false (s := s.relabel g) hidle hlen htop hbuffer
        ((spanFree_relabelDevs _).trans hfree), rfl, rfl, rfl, rfl⟩
  · exact ⟨_, execDump_of_idle (s := s.relabel g) hidle,
      congrArg (fun r => s.responses ++ [.records r]) dumpRecords_relabelDevs, rfl, rfl, rfl⟩
  · exact ⟨t.relabel g, (exec_of_accepted (s := s.relabel g) hidle hi hstart hfits).trans (transferOf_relabel hrun),
      rfl, rfl, rfl, rfl⟩

end Sys2Proof.Machine
end

section
/-! SUPPORT. The text form (R90, R91): a mnemonic that the assembler does not know, and the expansion of `DEVMAP`. -/

namespace Sys2Proof.Machine

/-- The mnemonics of R84 and R91. -/
def mnemonics : List String :=
  ["MAP", "READ", "WRITE", "DUMP", "READ8", "READ16", "READ32", "READ64", "WRITE8", "WRITE16", "WRITE32", "WRITE64",
    "DEVMAP"]

section
variable {mn : List Char} (hmn : mn ∉ mnemonics.map String.toList)
include hmn

theorem ne_mnemonic {name : String} (hname : name ∈ mnemonics) : mn ≠ name.toList :=
  fun heq => hmn (heq ▸ List.mem_map_of_mem hname)

theorem readWidthOf_unknown : readWidthOf mn = none := by
  rw [readWidthOf, if_neg (ne_mnemonic hmn (by decide)), if_neg (ne_mnemonic hmn (by decide)),
    if_neg (ne_mnemonic hmn (by decide)), if_neg (ne_mnemonic hmn (by decide))]

theorem writeWidthOf_unknown : writeWidthOf mn = none := by
  rw [writeWidthOf, if_neg (ne_mnemonic hmn (by decide)), if_neg (ne_mnemonic hmn (by decide)),
    if_neg (ne_mnemonic hmn (by decide)), if_neg (ne_mnemonic hmn (by decide))]

/-- However many operands the line has. -/
theorem assembleWords_unknown (devs : List Device) (ops : List (List Char)) : assembleWords devs mn ops = none := by
  unfold assembleWords
  split
  · exact if_neg (ne_mnemonic hmn (by decide))
  · rw [readWidthOf_unknown hmn]
  · rw [if_neg (ne_mnemonic hmn (by decide)), if_neg (ne_mnemonic hmn (by decide)), writeWidthOf_unknown hmn]
  · exact if_neg (ne_mnemonic hmn (by decide))
  · rfl

end

/-! ## The statements -/

/-- Settles O59: each form of a line asks for a mnemonic that it knows. -/
theorem assemblerRefusesUnknownMnemonic : Obligations.AssemblerRefusesUnknownMnemonic := by
  intro devs mn ts hmn
  unfold assembleTokens
  split
  next heq =>
    cases heq
    exact if_neg (ne_mnemonic hmn (by decide))
  next heq =>
    cases heq
    split
    · exact assembleWords_unknown hmn devs _
    · rfl
  next => rfl

/-- Settles O60: the line has the two operands of `DEVMAP`, and the device found has the identity asked for. -/
theorem devmapExpandsToMap : Obligations.DevmapExpandsToMap := by
  intro devs d a dev addr v hd ha hfind
  have hdev : v.dev = dev := by simpa using List.find?_some hfind
  have hwords : assembleWords devs "DEVMAP".toList [d, a] = assembleDevmap devs d a := by
    rw [assembleWords, if_neg (by decide), if_pos rfl]
  calc assembleTokens devs [.word "DEVMAP".toList, .word d, .comma, .word a]
    _ = assembleWords devs "DEVMAP".toList [d, a] := rfl
    _ = assembleDevmap devs d a := hwords
    _ = some (v.devmap addr) := by simp only [assembleDevmap, hd, ha, hfind, Option.map_some]
    _ = some (.map dev addr v.len v.ptr) := by rw [Device.devmap, hdev]

end Sys2Proof.Machine
end
